-- ==== Sys2Proof/Word.lean ====
section
/-! DEFINITION. The widths the spec names (00_scope.md R7): byte, nibble, register address. -/

namespace Sys2Proof

/-- A byte is 8 bits (00_scope.md R7). -/
abbrev Byte := BitVec 8

/-- A nibble is 4 bits (00_scope.md R7). -/
abbrev Nibble := BitVec 4

/-- A register address of the device is 8 bits wide (20_memory.md R50). -/
abbrev RegAddr := BitVec 8

end Sys2Proof
end

