-- ==== Sys2Proof/Config.lean ====
section
/-! DEFINITION. Parameters of the block (00_scope.md R6), the constants the spec fixes, and the free values: opaque
constants of which nothing can be proved. -/

namespace Sys2Proof

/-- The floating-point format `FMT`, an OPEN parameter (42_compensation_pipeline.md R155, D5). -/
inductive Fmt where
  | binary32
  | binary64
deriving DecidableEq, Repr

/-- `MAC_MODE`, an OPEN parameter (42_compensation_pipeline.md R170, R171, D8). -/
inductive MacMode where
  | separate
  | fused
deriving DecidableEq, Repr

/-- The OPEN parameters the block's rules read: "parameters of the model (`00_scope.md rule R6`), fixed before reset and
not changeable by any command" (10_state.md R34). -/
structure Params where
  fmt     : Fmt
  macMode : MacMode
deriving DecidableEq, Repr

namespace Config

/-- The device's bus address `DEV_ADDR`, 7 bits (20_memory.md R50). It is an operand of no command (D25). -/
def devAddr : BitVec 7 := 0x77#7

/-- `KT = 524288.0`, a constant of the block (00_scope.md R6, D19). -/
def kT : Int := 524288

/-- `KP = 1040384.0`, a constant of the block (00_scope.md R6, D19). -/
def kP : Int := 1040384

/-- The spec's defaults for a model that must pick: binary32 and SEPARATE (D5, D8). DESIGN CHOICE for `State.reset`
only (log 9): no rule of the model rests on it. -/
def defaultParams : Params := { fmt := .binary32, macMode := .separate }

/-- FREE VALUE (log 2): the transport's answer to read number `n`, at `addr`, where no answer is listed: any byte, or
`none` for a failed read (20_memory.md R52: "an oracle that may return any byte or failure"). -/
opaque transport : (n : Nat) → (addr : RegAddr) → Option Byte

/-- FREE VALUE (log 18): the content of a device register outside the calibration region that nothing has placed, as
read number `n` finds it (20_memory.md R56, R70; 93 U6, U7: "any value"). -/
opaque deviceByte : (n : Nat) → (addr : RegAddr) → Byte

/-- FREE VALUE (log 18): the content of a calibration register that nothing has placed: a factory constant, the same at
every read (20_memory.md R63), for every device: that a re-initialised or exchanged device with nothing placed has the
same bytes is the model's choice (log 26). -/
opaque factoryByte : (addr : RegAddr) → Byte

/-- FREE VALUE (log 13): the sign of a NaN, "not specified" (42_compensation_pipeline.md R162). -/
opaque nanSign : Bool

/-- FREE VALUE (log 13): the payload of a NaN, "not specified" (42_compensation_pipeline.md R162). -/
opaque nanPayload : Nat

end Config

end Sys2Proof
end

