-- ==== Sys2Proof/Syntax.lean ====
section
/-! DEFINITION. The instructions, one constructor per row of opcode_table.json, and the words they are decoded from
(30_encoding.md R80, R83, R86, R94). -/

namespace Sys2Proof

/-- The seven coefficients in the spec's index order `k` (10_state.md R21). It names a coefficient register `C[k]` and
the row of opcode_table.json that extracts it. -/
inductive CalFn where
  | c00 | c10 | c01 | c11 | c20 | c21 | c30
deriving DecidableEq, Repr

/-- The two raw values; each names a row of opcode_table.json of format RAW3. -/
inductive RawFn where
  | praw | traw
deriving DecidableEq, Repr

/-- The instructions. The five commands carry no operand (30_encoding.md R80); an extraction function carries the byte
operands its rule names (40_calibration_extractor.md R113 to R119, 41_sample_decode.md R141, R142). -/
inductive Instr where
  | nop
  | calLoad
  | rdPrs
  | rdTmp
  | comp
  | extC00 (b0 b1 b2 : Byte)
  | extC10 (b2 b3 b4 : Byte)
  | extC01 (b5 b6 : Byte)
  | extC11 (b7 b8 : Byte)
  | extC20 (b9 b10 : Byte)
  | extC21 (b11 b12 : Byte)
  | extC30 (b13 b14 : Byte)
  | extPraw (s0 s1 s2 : Byte)
  | extTraw (s0 s1 s2 : Byte)
deriving DecidableEq, Repr

/-- A word as it is presented to the decoder, in one of the three formats. A data image has no selecting bits
(30_encoding.md R94: "`mask` 0"), so the extraction function is named beside it, as the spec's syntax does (R90). -/
inductive CodeWord where
  /-- Format `CMD`: the 3-bit command code (R80). -/
  | cmd (code : BitVec 3)
  /-- Format `CAL15`: the calibration image `IMG[119:0]` (R83). -/
  | cal15 (f : CalFn) (img : BitVec 120)
  /-- Format `RAW3`: the raw image `RAW[23:0]` (R86). -/
  | raw3 (f : RawFn) (raw : BitVec 24)
deriving DecidableEq, Repr

/-- The three formats of opcode_table.json. -/
inductive Format where
  | CMD | CAL15 | RAW3
deriving DecidableEq, Repr

def CodeWord.format : CodeWord → Format
  | .cmd _ => .CMD
  | .cal15 _ _ => .CAL15
  | .raw3 _ _ => .RAW3

/-- The fixed length of each format in bits (30_encoding.md R89). -/
def Format.width : Format → Nat
  | .CMD => 3
  | .CAL15 => 120
  | .RAW3 => 24

/-- The spelling of each instruction in opcode_table.json. -/
def Instr.mnemonic : Instr → String
  | .nop => "NOP"
  | .calLoad => "CAL_LOAD"
  | .rdPrs => "RD_PRS"
  | .rdTmp => "RD_TMP"
  | .comp => "COMP"
  | .extC00 .. => "EXT.C00"
  | .extC10 .. => "EXT.C10"
  | .extC01 .. => "EXT.C01"
  | .extC11 .. => "EXT.C11"
  | .extC20 .. => "EXT.C20"
  | .extC21 .. => "EXT.C21"
  | .extC30 .. => "EXT.C30"
  | .extPraw .. => "EXT.PRAW"
  | .extTraw .. => "EXT.TRAW"

/-- Seven signed integers, one per coefficient: the argument `C` of the function `comp` and of `pack`
(42_compensation_pipeline.md R172, 30_encoding.md R92). -/
structure CoefVals where
  c00 : Int
  c10 : Int
  c01 : Int
  c11 : Int
  c20 : Int
  c21 : Int
  c30 : Int
deriving DecidableEq, Repr

/-- `C[k]` (00_scope.md R12). -/
def CoefVals.get (c : CoefVals) : CalFn → Int
  | .c00 => c.c00
  | .c10 => c.c10
  | .c01 => c.c01
  | .c11 => c.c11
  | .c20 => c.c20
  | .c21 => c.c21
  | .c30 => c.c30

/-- The width `N` of each coefficient field (10_state.md R21). -/
def CalFn.width : CalFn → Nat
  | .c00 => 20
  | .c10 => 20
  | .c01 => 16
  | .c11 => 16
  | .c20 => 16
  | .c21 => 16
  | .c30 => 16

end Sys2Proof
end

