-- ==== Sys2Proof/Machine/State.lean ====
section
/-! DEFINITION. The state of the block (10_state.md R20), of what stands outside it (the model's own `Env`), the state
after reset (R38), and the reasons a step can stop. -/

namespace Sys2Proof.Machine

/-- `PHASE` (10_state.md R30). -/
inductive Phase where
  | unloaded | ready | failed
deriving DecidableEq, Repr

/-- The result codes of `RES` (60_exceptions.md R210). `111` is never produced and is left out of the type, as R210
allows. -/
inductive ResultCode where
  | ok | eTransport | eNoCal | eStale | eLocked | eFatal | eIllCmd
deriving DecidableEq, Repr

/-- The coefficient register file: the stored bit patterns (10_state.md R21, R22). -/
structure Coefs where
  c00 : BitVec 20
  c10 : BitVec 20
  c01 : BitVec 16
  c11 : BitVec 16
  c20 : BitVec 16
  c21 : BitVec 16
  c30 : BitVec 16
deriving DecidableEq, Repr

/-- The content of `PRESSURE`: 32 bits for binary32, 64 bits for binary64 (10_state.md R27). -/
inductive FloatBits where
  | b32 (bits : BitVec 32)
  | b64 (bits : BitVec 64)
deriving DecidableEq, Repr

/-- The device's configuration registers, which the host writes (20_memory.md R53, R58). -/
inductive ConfigReg where
  /-- 0x06, pressure configuration. -/
  | prsCfg
  /-- 0x07, temperature configuration. -/
  | tmpCfg
  /-- 0x08, measurement trigger. -/
  | trigger
  /-- 0x09, interrupt/FIFO configuration. -/
  | shiftCfg
deriving DecidableEq, Repr

/-- One act of the world outside the block, landing between commands. -/
inductive Input where
  /-- A word is presented. With `.cmd code` it is the host presenting a command code (30_encoding.md R80); with an image
  it evaluates an extraction function, which no host can do (R90; log 5). -/
  | present (word : CodeWord)
  /-- The reset input is asserted (70_reset_and_hazards.md R240). -/
  | reset
  /-- The host's `MemWrite(reg, 1, v)`; `ok = false` when the write fails (70_reset_and_hazards.md R245). -/
  | configWrite (reg : ConfigReg) (v : Byte) (ok : Bool)
  /-- The device changes one of its registers on its own (20_memory.md R70; log 20). DESIGN CHOICE (log 26): any address
  is allowed, and a re-initialised or exchanged device is a run of such changes; R70 itself speaks of the result
  registers. -/
  | deviceChanges (addr : RegAddr) (v : Byte)
deriving DecidableEq, Repr

/-- What happens while the block waits for the answer of one `MemRead` (20_memory.md R52). -/
inductive Reply where
  /-- The transport answers `Ok(b)`, whatever the device holds (70_reset_and_hazards.md R252). -/
  | byte (b : Byte)
  /-- The transport answers `Ok` with the content of the device's register (log 17). -/
  | content
  /-- The read fails: `TransportError` (60_exceptions.md R211). -/
  | failed
  /-- Reset is asserted before the answer comes (70_reset_and_hazards.md R240, 93 U8; log 4). -/
  | reset
  /-- The transport never answers (93 U5; log 3). -/
  | never
deriving DecidableEq, Repr

/-- One `MemRead` event (20_memory.md R71): the address, and the byte delivered, `none` where none was. -/
structure ReadEvent where
  addr   : RegAddr
  answer : Option Byte
deriving DecidableEq, Repr

/-- The known contents of the device register space (20_memory.md R50), in canonical form (`Memory.wf`). The content of
an address not listed is a free value (log 16, log 18). -/
abbrev Memory := List Host.Cell

/-- What stands outside the block: the MODEL's own fields, no state of the block (10_state.md R20). -/
structure Env where
  /-- What the world outside does next, first act first (log 1). -/
  inputs  : List Input
  /-- How the next `MemRead`s are answered, next one first (log 2). -/
  replies : List Reply
  /-- What is known of the device's registers (log 16). -/
  device  : Memory
  /-- The `MemRead` events so far, oldest first (20_memory.md R71; log 19). -/
  history : List ReadEvent
  /-- The value of the extraction function evaluated last (log 5). -/
  extOut  : Option Int
deriving DecidableEq, Repr

/-- The state: the parameters, the block's state (10_state.md R20), and the world outside it. A register that holds no
value is `none` (00_scope.md R12; log 7). -/
structure State where
  /-- `FMT` and `MAC_MODE` (00_scope.md R6; log 9). -/
  params        : Params
  /-- `PHASE` (10_state.md R30). -/
  phase         : Phase
  /-- `C00`, `C10`, `C01`, `C11`, `C20`, `C21`, `C30`, which have values together or not at all (R21, R24, and
  40_calibration_extractor.md R122). -/
  coef          : Option Coefs
  /-- `P_RAW` (10_state.md R25). -/
  pRaw          : Option (BitVec 24)
  /-- `T_RAW` (10_state.md R25). -/
  tRaw          : Option (BitVec 24)
  /-- `P_FRESH` (10_state.md R26). -/
  pFresh        : Bool
  /-- `T_FRESH` (10_state.md R26). -/
  tFresh        : Bool
  /-- `PRESSURE` (10_state.md R27). -/
  pressure      : Option FloatBits
  /-- `PRESSURE_VALID` (10_state.md R28). -/
  pressureValid : Bool
  /-- `RES` (10_state.md R33). -/
  res           : ResultCode
  /-- What stands outside the block. -/
  env           : Env
deriving DecidableEq, Repr

/-- A world in which nothing is yet placed: no input, no listed answer, nothing known of the device (log 24). -/
def Env.empty : Env := { inputs := [], replies := [], device := [], history := [], extOut := none }

/-- The block after reset (10_state.md R38), with given parameters and the world outside as it stands. -/
def State.resetWith (params : Params) (env : Env) : State :=
  { params := params, phase := .unloaded, coef := none, pRaw := none, tRaw := none, pFresh := false, tFresh := false,
    pressure := none, pressureValid := false, res := .ok, env := env }

/-- The machine right after reset (10_state.md R38), with the spec's default parameters (log 9) and nothing placed
outside (log 24). -/
def State.reset : State := State.resetWith Config.defaultParams Env.empty

/-- Why the machine stops. -/
inductive Fault where
  /-- A register is read that holds no value (00_scope.md R12, 93 U1). Raised by `COMP`, only in states in which a guard
  is set over a register without a value (no run reaches one), and by `observe` outside a guard. Safe: the model stops
  (log 8). -/
  | noValue
  /-- The transport never answers a `MemRead`: the command never ends and commits nothing (93 U5, 43_control.md R192).
  Raised by `CAL_LOAD`, `RD_PRS`, `RD_TMP`. Safe: the hardware is stuck too (log 3). -/
  | transportNeverAnswers
deriving DecidableEq, Repr

/-- Why the model has no meaning for a step. The spec's own refusals (60_exceptions.md R214) are none of these: they are
next states. -/
inductive Refusal where
  /-- An instruction without a meaning; raised by `exec` alone. Safe. No arm of this model raises it. -/
  | notModelled (mnemonic : String)
deriving DecidableEq, Repr

/-- The outcome of a step of this machine. -/
abbrev Result := Host.Outcome State Fault Refusal

end Sys2Proof.Machine
end

