-- ==== Sys2Proof/Machine/Flags.lean ====
section
/-! DEFINITION. The flags and what they guard (10_state.md R24 to R28, R32), and the result code register
(60_exceptions.md R210). The block has no arithmetic flag (10_state.md R32). -/

namespace Sys2Proof.Machine

/-- `CAL_VALID`, an alias: `CAL_VALID = (PHASE = READY)` (10_state.md R32). -/
def calValid (s : State) : Bool := s.phase == .ready

/-- The coefficient registers, read under their guard `PHASE = READY` (10_state.md R24, 00_scope.md R12). -/
def readCoefs (s : State) : Option Coefs := if calValid s then s.coef else none

/-- `P_RAW` read under its guard `P_FRESH`: "When a flag is 0 its register holds no value" (10_state.md R26). -/
def readPRaw (s : State) : Option (BitVec 24) := if s.pFresh then s.pRaw else none

/-- `T_RAW` read under its guard `T_FRESH` (10_state.md R26). -/
def readTRaw (s : State) : Option (BitVec 24) := if s.tFresh then s.tRaw else none

/-- `PRESSURE` read under its guard `PRESSURE_VALID` (10_state.md R28). -/
def readPressure (s : State) : Option FloatBits := if s.pressureValid then s.pressure else none

/-- `RES[2:0]` (60_exceptions.md R210). -/
def resBits : ResultCode → BitVec 3
  | .ok => 0b000#3
  | .eTransport => 0b001#3
  | .eNoCal => 0b010#3
  | .eStale => 0b011#3
  | .eLocked => 0b100#3
  | .eFatal => 0b101#3
  | .eIllCmd => 0b110#3

/-- The end of a command: "Every command other than `NOP` ends by writing one of these codes to `RES`"
(60_exceptions.md R210). -/
def setRes (code : ResultCode) (s : State) : State := { s with res := code }

/-- `C00 <- c00; …; C30 <- c30; PHASE <- READY`, one commit (40_calibration_extractor.md R121, R122); `CAL_VALID`
becomes 1 as the alias. -/
def commitCoefs (c : Coefs) (s : State) : State := { s with coef := some c, phase := .ready }

/-- `P_RAW <- v; P_FRESH <- 1` (41_sample_decode.md R144). -/
def commitPRaw (v : BitVec 24) (s : State) : State := { s with pRaw := some v, pFresh := true }

/-- `T_RAW <- v; T_FRESH <- 1` (41_sample_decode.md R145). -/
def commitTRaw (v : BitVec 24) (s : State) : State := { s with tRaw := some v, tFresh := true }

/-- `PRESSURE <- v; PRESSURE_VALID <- 1; P_FRESH <- 0; T_FRESH <- 0` (42_compensation_pipeline.md R176). -/
def commitPressure (v : FloatBits) (s : State) : State :=
  { s with pressure := some v, pressureValid := true, pFresh := false, tFresh := false }

end Sys2Proof.Machine
end

