-- ==== Sys2Proof/WellFormed.lean ====
section
/-! DEFINITION. Well-formedness: which presented words and which seven-tuples the spec gives a meaning. -/

namespace Sys2Proof

/-- Every instruction is well formed: the commands have no operand, and "every one of the `2^120` calibration images
and every one of the `2^24` raw images decodes to a legal value" (30_encoding.md R82). The byte operands are bytes by
their type. -/
def Instr.wellFormed : Instr → Bool
  | .nop => true
  | .calLoad => true
  | .rdPrs => true
  | .rdTmp => true
  | .comp => true
  | .extC00 _ _ _ => true
  | .extC10 _ _ _ => true
  | .extC01 _ _ => true
  | .extC11 _ _ => true
  | .extC20 _ _ => true
  | .extC21 _ _ => true
  | .extC30 _ _ => true
  | .extPraw _ _ _ => true
  | .extTraw _ _ _ => true

/-- A presented word is well formed unless it is a reserved command code, `101`, `110` or `111` (30_encoding.md R82). -/
def CodeWord.wellFormed : CodeWord → Bool
  | .cmd code => code.toNat ≤ 4
  | .cal15 _ _ => true
  | .raw3 _ _ => true

/-- An integer is in the range of an `N`-bit two's-complement field (10_state.md R21). -/
def inRange (n : Nat) (v : Int) : Bool := -(2 ^ (n - 1) : Nat) ≤ v ∧ v < (2 ^ (n - 1) : Nat)

/-- The seven integers are in the ranges of their registers (10_state.md R21): the tuples that `pack` encodes
(30_encoding.md R92). -/
def CoefVals.wellFormed (c : CoefVals) : Bool :=
  inRange 20 c.c00 && inRange 20 c.c10 && inRange 16 c.c01 && inRange 16 c.c11 && inRange 16 c.c20
    && inRange 16 c.c21 && inRange 16 c.c30

end Sys2Proof
end

