-- ==== Sys2Proof/Decode.lean ====
section
/-! DEFINITION. The images as bit vectors (30_encoding.md R83, R86), the decoder (R81, R94), and after it the encoders:
`encode` for instructions and `pack` for calibration images (R92). -/

namespace Sys2Proof

/-- The byte string read as one number, first byte most significant: `IMG = B[0] ++ B[1] ++ ...` (30_encoding.md R83,
20_memory.md R59). -/
def bytesValue (bytes : List Byte) : Nat :=
  bytes.foldl (fun acc b => 256 * acc + b.toNat) 0

/-- The calibration image `IMG[119:0]` of the 15 bytes `B[0]` to `B[14]` (30_encoding.md R83). -/
def calImage (bytes : List Byte) : BitVec 120 := BitVec.ofNat 120 (bytesValue bytes)

/-- The raw image `RAW[23:0]` of the three bytes `S[0]` to `S[2]` (30_encoding.md R86). -/
def rawImage (bytes : List Byte) : BitVec 24 := BitVec.ofNat 24 (bytesValue bytes)

/-- `B[i] = IMG[119-8i : 112-8i]` (30_encoding.md R83). -/
def calByte (img : BitVec 120) (i : Nat) : Byte := img.extractLsb' (112 - 8 * i) 8

/-- `S[i] = RAW[23-8i : 16-8i]` (30_encoding.md R86). -/
def rawByte (raw : BitVec 24) (i : Nat) : Byte := raw.extractLsb' (16 - 8 * i) 8

/-- Why a presented word is no instruction. -/
inductive DecodeError where
  /-- A reserved command code (30_encoding.md R82); the dispatcher refuses it with `E_ILLCMD`. -/
  | reservedCommand (code : BitVec 3)
deriving DecidableEq, Repr

/-- The command codes (30_encoding.md R81). -/
def decodeCmd (code : BitVec 3) : Except DecodeError Instr :=
  match code.toNat with
  | 0 => .ok .nop
  | 1 => .ok .calLoad
  | 2 => .ok .rdPrs
  | 3 => .ok .rdTmp
  | 4 => .ok .comp
  | _ => .error (.reservedCommand code)

/-- An extraction function takes its operand bytes out of the image (opcode_table.json; 30_encoding.md R84). -/
def decodeCal (f : CalFn) (img : BitVec 120) : Instr :=
  match f with
  | .c00 => .extC00 (calByte img 0) (calByte img 1) (calByte img 2)
  | .c10 => .extC10 (calByte img 2) (calByte img 3) (calByte img 4)
  | .c01 => .extC01 (calByte img 5) (calByte img 6)
  | .c11 => .extC11 (calByte img 7) (calByte img 8)
  | .c20 => .extC20 (calByte img 9) (calByte img 10)
  | .c21 => .extC21 (calByte img 11) (calByte img 12)
  | .c30 => .extC30 (calByte img 13) (calByte img 14)

/-- The two rows of format RAW3 (30_encoding.md R86). -/
def decodeRaw (f : RawFn) (raw : BitVec 24) : Instr :=
  match f with
  | .praw => .extPraw (rawByte raw 0) (rawByte raw 1) (rawByte raw 2)
  | .traw => .extTraw (rawByte raw 0) (rawByte raw 1) (rawByte raw 2)

/-- The decoder, total on every presented word (30_encoding.md R94, 43_control.md R190). -/
def decode : CodeWord → Except DecodeError Instr
  | .cmd code => decodeCmd code
  | .cal15 f img => .ok (decodeCal f img)
  | .raw3 f raw => .ok (decodeRaw f raw)

/-- A byte in its place in the calibration image (30_encoding.md R83). -/
def calPlace (i : Nat) (b : Byte) : BitVec 120 := b.setWidth 120 <<< (112 - 8 * i)

/-- The encoder. The bytes of an image that are no operand of the function are 0 (log 5). -/
def encode : Instr → CodeWord
  | .nop => .cmd 0b000#3
  | .calLoad => .cmd 0b001#3
  | .rdPrs => .cmd 0b010#3
  | .rdTmp => .cmd 0b011#3
  | .comp => .cmd 0b100#3
  | .extC00 b0 b1 b2 => .cal15 .c00 (calPlace 0 b0 ||| calPlace 1 b1 ||| calPlace 2 b2)
  | .extC10 b2 b3 b4 => .cal15 .c10 (calPlace 2 b2 ||| calPlace 3 b3 ||| calPlace 4 b4)
  | .extC01 b5 b6 => .cal15 .c01 (calPlace 5 b5 ||| calPlace 6 b6)
  | .extC11 b7 b8 => .cal15 .c11 (calPlace 7 b7 ||| calPlace 8 b8)
  | .extC20 b9 b10 => .cal15 .c20 (calPlace 9 b9 ||| calPlace 10 b10)
  | .extC21 b11 b12 => .cal15 .c21 (calPlace 11 b11 ||| calPlace 12 b12)
  | .extC30 b13 b14 => .cal15 .c30 (calPlace 13 b13 ||| calPlace 14 b14)
  | .extPraw s0 s1 s2 => .raw3 .praw (rawImage [s0, s1, s2])
  | .extTraw s0 s1 s2 => .raw3 .traw (rawImage [s0, s1, s2])

/-- The 15 bytes of a calibration image, `B[0]` first (30_encoding.md R83). -/
def imageBytes (img : BitVec 120) : List Byte := (List.range 15).map (calByte img)

/-- `pack`: the 15 bytes that encode seven signed values in range (30_encoding.md R92). `BitVec.ofInt n c` is the
pattern of `c mod 2^n`, the non-negative remainder. -/
def pack (c : CoefVals) : List Byte :=
  let u00 : BitVec 20 := BitVec.ofInt 20 c.c00
  let u10 : BitVec 20 := BitVec.ofInt 20 c.c10
  let high (v : Int) : Byte := (BitVec.ofInt 16 v).extractLsb' 8 8
  let low (v : Int) : Byte := (BitVec.ofInt 16 v).extractLsb' 0 8
  [ u00.extractLsb' 12 8, u00.extractLsb' 4 8,
    (u00.extractLsb' 0 4 ++ u10.extractLsb' 16 4 : BitVec (4 + 4)),
    u10.extractLsb' 8 8, u10.extractLsb' 0 8,
    high c.c01, low c.c01, high c.c11, low c.c11, high c.c20, low c.c20,
    high c.c21, low c.c21, high c.c30, low c.c30 ]

/-- The word a row of opcode_table.json stands for, its bits numbered as the table numbers them. A command word has 3
bits, so a byte with a bit above bit 2 is none. Each of the seven rows of format CAL15 matches every image (mask 0),
and each of the two of format RAW3; the first row of the format is taken (log 6). -/
def tableWord (nbits w : Nat) : Option CodeWord :=
  if nbits ≤ 8 then
    if w < 2 ^ 3 then some (.cmd (BitVec.ofNat 3 w)) else none
  else if nbits = 24 then
    if w < 2 ^ 24 then some (.raw3 .praw (BitVec.ofNat 24 w)) else none
  else if nbits = 120 then
    if w < 2 ^ 120 then some (.cal15 .c00 (BitVec.ofNat 120 w)) else none
  else none

/-- The instruction the decoder reads from a word numbered as opcode_table.json numbers it. -/
def decodeTableWord (nbits w : Nat) : Option Instr :=
  match tableWord nbits w with
  | none => none
  | some word =>
    match decode word with
    | .ok i => some i
    | .error _ => none

end Sys2Proof
end

