-- ==== Sys2Proof/Machine/Operands.lean ====
section
/-! DEFINITION. Operand assembly: sign extension (00_scope.md R9), the split of the shared byte
(40_calibration_extractor.md R120), the unsigned fields (30_encoding.md R87) and their signed values (R88). -/

namespace Sys2Proof.Machine

/-- `sext_N(U)`: `U` if `U < 2^(N-1)`, else `U - 2^N` (00_scope.md R9). -/
def sext (n u : Nat) : Int := if u < 2 ^ (n - 1) then (u : Int) else (u : Int) - (2 ^ n : Nat)

/-- The signed value of a stored pattern (10_state.md R22). -/
def signedValue {n : Nat} (u : BitVec n) : Int := sext n u.toNat

/-- `split_shared(B[2])`: `c00_low_nibble = B[2][7:4]` and `c10_high_nibble = B[2][3:0]`
(40_calibration_extractor.md R120). -/
def splitShared (b2 : Byte) : Nibble × Nibble := (b2.extractLsb' 4 4, b2.extractLsb' 0 4)

/-- `U_c00 = (B[0] << 12) | (B[1] << 4) | hi` (30_encoding.md R87), the concatenation of its parts (00_scope.md R8). -/
def assembleC00 (b0 b1 : Byte) (hi : Nibble) : BitVec 20 := (b0 ++ b1 ++ hi : BitVec (8 + 8 + 4))

/-- `U_c10 = (lo << 16) | (B[3] << 8) | B[4]` (30_encoding.md R87). -/
def assembleC10 (lo : Nibble) (b3 b4 : Byte) : BitVec 20 := (lo ++ b3 ++ b4 : BitVec (4 + 8 + 8))

/-- `(high << 8) | low`, the five 16-bit fields (30_encoding.md R87). -/
def assemble16 (high low : Byte) : BitVec 16 := (high ++ low : BitVec (8 + 8))

/-- `U_raw = (S[0] << 16) | (S[1] << 8) | S[2]` (30_encoding.md R87). -/
def assembleRaw (s0 s1 s2 : Byte) : BitVec 24 := (s0 ++ s1 ++ s2 : BitVec (8 + 8 + 8))

/-- The value of `EXT.C00` (40_calibration_extractor.md R113). -/
def valueC00 (b0 b1 b2 : Byte) : Int := signedValue (assembleC00 b0 b1 (splitShared b2).1)

/-- The value of `EXT.C10` (40_calibration_extractor.md R114). -/
def valueC10 (b2 b3 b4 : Byte) : Int := signedValue (assembleC10 (splitShared b2).2 b3 b4)

/-- The value of `EXT.C01`, `EXT.C11`, `EXT.C20`, `EXT.C21`, `EXT.C30` on their two bytes
(40_calibration_extractor.md R115 to R119). -/
def value16 (high low : Byte) : Int := signedValue (assemble16 high low)

/-- The value of `EXT.PRAW` and `EXT.TRAW` (41_sample_decode.md R141, R142). -/
def valueRaw (s0 s1 s2 : Byte) : Int := signedValue (assembleRaw s0 s1 s2)

/-- The decode of a calibration image into the seven stored patterns, the straight-line part of `CAL_LOAD`
(40_calibration_extractor.md R121). -/
def decodeImage (img : BitVec 120) : Coefs :=
  let nibbles := splitShared (calByte img 2)
  { c00 := assembleC00 (calByte img 0) (calByte img 1) nibbles.1
    c10 := assembleC10 nibbles.2 (calByte img 3) (calByte img 4)
    c01 := assemble16 (calByte img 5) (calByte img 6)
    c11 := assemble16 (calByte img 7) (calByte img 8)
    c20 := assemble16 (calByte img 9) (calByte img 10)
    c21 := assemble16 (calByte img 11) (calByte img 12)
    c30 := assemble16 (calByte img 13) (calByte img 14) }

/-- The decode of a raw image into the stored pattern of `P_RAW` or `T_RAW` (41_sample_decode.md R144, R145). -/
def decodeSample (raw : BitVec 24) : BitVec 24 := assembleRaw (rawByte raw 0) (rawByte raw 1) (rawByte raw 2)

/-- The seven register values, sign-extended (10_state.md R22). -/
def coefValues (c : Coefs) : CoefVals :=
  { c00 := signedValue c.c00
    c10 := signedValue c.c10
    c01 := signedValue c.c01
    c11 := signedValue c.c11
    c20 := signedValue c.c20
    c21 := signedValue c.c21
    c30 := signedValue c.c30 }

end Sys2Proof.Machine
end

