-- ==== Sys2Proof/Machine/Ops.lean ====
section
/-! DEFINITION. The device register space (20_memory.md), `MemRead` and the read loop (00_scope.md R10, 10_state.md
R31), and the ways a command ends: complete, `TransportError`, refusal, reset (00_scope.md R11, 60_exceptions.md). -/

namespace Sys2Proof.Machine

/-- The known content of address `a`, `none` where it is not known. -/
def Memory.lookup : Memory → Nat → Option Byte
  | [], _ => none
  | (k, b) :: rest, a => if k = a then some b else Memory.lookup rest a

/-- The content of address `a` becomes `b`, the list kept in order. -/
def Memory.store : Memory → Nat → Byte → Memory
  | [], a, b => [(a, b)]
  | (k, c) :: rest, a, b =>
    if a < k then (a, b) :: (k, c) :: rest
    else if a = k then (a, b) :: rest
    else (k, c) :: Memory.store rest a b

/-- The content of address `a` is no longer known. -/
def Memory.forget (m : Memory) (a : Nat) : Memory := m.filter fun cell => cell.1 ≠ a

/-- The canonical form: addresses strictly rising, all of them 8 bits wide (20_memory.md R50). No entry can equal what
an unlisted address reads as, which is a free value (log 16). -/
def Memory.wf : Memory → Bool
  | [] => true
  | (k, _) :: rest => decide (k < 256) && rest.all (fun cell => decide (k < cell.1)) && Memory.wf rest

/-- The calibration region, 0x13 to 0x21 (20_memory.md R54). -/
def inCalRegion (addr : RegAddr) : Bool := 0x13 ≤ addr.toNat ∧ addr.toNat ≤ 0x21

/-- The content of a device register as the next read finds it: the known byte, or a free value; in the calibration
region the same at every read (20_memory.md R63, R70; 93 U6, U7; log 18), after a re-initialisation of the device too,
unless new bytes are placed (DESIGN CHOICE, log 26). -/
def deviceContent (e : Env) (addr : RegAddr) : Byte :=
  match e.device.lookup addr.toNat with
  | some b => b
  | none => if inCalRegion addr then Config.factoryByte addr else Config.deviceByte e.history.length addr

/-- How one `MemRead` ends. -/
inductive Answer where
  | byte (b : Byte)
  | failed
  | reset
  | never
deriving DecidableEq, Repr

/-- How the next `MemRead`, at `addr`, ends: as listed, and where nothing is listed by a free value, any byte or a
failure (20_memory.md R52; log 2). -/
def nextAnswer (e : Env) (addr : RegAddr) : Answer :=
  match e.replies with
  | [] =>
    match Config.transport e.history.length addr with
    | some b => .byte b
    | none => .failed
  | .byte b :: _ => .byte b
  | .content :: _ => .byte (deviceContent e addr)
  | .failed :: _ => .failed
  | .reset :: _ => .reset
  | .never :: _ => .never

/-- One `MemRead` event takes place (20_memory.md R71). -/
def recordRead (addr : RegAddr) (answer : Option Byte) (e : Env) : Env :=
  { e with replies := e.replies.tail, history := e.history ++ [⟨addr, answer⟩] }

/-- How the reads of a command end. -/
inductive ReadResult where
  /-- Every read succeeded: the staged bytes (10_state.md R36). -/
  | done (staged : List Byte) (e : Env)
  /-- A read failed: `TransportError`; the staged bytes are dropped (40_calibration_extractor.md R123). -/
  | failed (e : Env)
  /-- Reset came first: the command is abandoned (70_reset_and_hazards.md R240). -/
  | reset (e : Env)
  /-- The transport never answers (93 U5). -/
  | hung
deriving DecidableEq, Repr

/-- A byte is staged before those read after it. -/
def ReadResult.stage (b : Byte) : ReadResult → ReadResult
  | .done staged e => .done (b :: staged) e
  | .failed e => .failed e
  | .reset e => .reset e
  | .hung => .hung

/-- The read loop: `n` reads, the next with loop index `idx` at address `base + idx` (10_state.md R31, 43_control.md
R194). It stops at the first read that does not succeed. -/
def readLoop (base : RegAddr) : (n idx : Nat) → Env → ReadResult
  | 0, _, e => .done [] e
  | n + 1, idx, e =>
    let addr := base + BitVec.ofNat 8 idx
    match nextAnswer e addr with
    | .byte b => (readLoop base n (idx + 1) (recordRead addr (some b) e)).stage b
    | .failed => .failed (recordRead addr none e)
    | .reset => .reset (recordRead addr none e)
    | .never => .hung

/-- Whether, of the next `n` reads, one is never answered: it is listed so, and all before it succeed (93 U5). -/
def hangs : (n : Nat) → List Reply → Bool
  | 0, _ => false
  | n + 1, .byte _ :: rest => hangs n rest
  | n + 1, .content :: rest => hangs n rest
  | _ + 1, .never :: _ => true
  | _ + 1, _ => false

/-- The three commands that read the device (20_memory.md R51). -/
inductive Reader where
  | calLoad | rdPrs | rdTmp
deriving DecidableEq, Repr

/-- `CAL_BASE`, `PRS_BASE`, `TMP_BASE` (00_scope.md R6). -/
def Reader.base : Reader → RegAddr
  | .calLoad => 0x13#8
  | .rdPrs => 0x00#8
  | .rdTmp => 0x03#8

/-- `N_CAL = 15`, and three bytes for a result (00_scope.md R6). -/
def Reader.count : Reader → Nat
  | .calLoad => 15
  | .rdPrs => 3
  | .rdTmp => 3

/-- `complete OK` (00_scope.md R11). -/
def complete (s : State) : State := setRes .ok s

/-- `refuse <code>`: no `MemRead`, nothing changes but `RES` (00_scope.md R11, 60_exceptions.md R214). -/
def refuse (code : ResultCode) (s : State) : State := setRes code s

/-- Taking the one exception, `TransportError` (60_exceptions.md R211, R219): the code is saved in `RES`; in `CAL_LOAD`
`PHASE <- FAILED` (R212), in a sample read the sample's freshness flag is cleared (R213). Control goes nowhere: the block
waits for a command. -/
def raiseTransport (who : Reader) (s : State) : State :=
  match who with
  | .calLoad => setRes .eTransport { s with phase := .failed }
  | .rdPrs => setRes .eTransport { s with pFresh := false }
  | .rdTmp => setRes .eTransport { s with tFresh := false }

/-- Reset of the block: every piece of its state takes its reset value; the device is not touched (10_state.md R38, R39,
70_reset_and_hazards.md R240). -/
def resetBlock (s : State) : State := State.resetWith s.params s.env

/-- The body of a command that reads the device: the reads, then `commit` on the staged bytes and `complete OK`, or the
command's failure rule (00_scope.md R11, 43_control.md R194). A read that is never answered leaves the command stuck (93
U5). The last arm is never reached: `hangs` has tested for it (`readLoop_hung_iff`). -/
def runReads (who : Reader) (commit : List Byte → State → State) (s : State) : Result :=
  if hangs who.count s.env.replies then .fault .transportNeverAnswers
  else .next (
    match readLoop who.base who.count 0 s.env with
    | .done staged e => complete (commit staged { s with env := e })
    | .failed e => raiseTransport who { s with env := e }
    | .reset e => resetBlock { s with env := e }
    | .hung => s)

/-- The value of an extraction function is given out in the model's own field; nothing else changes
(40_calibration_extractor.md section 2: "they read only their byte operands and write nothing"; log 5). -/
def giveValue (v : Int) (s : State) : State := { s with env := { s.env with extOut := some v } }

end Sys2Proof.Machine
end

