-- ==== Sys2Proof/Machine/Calibration.lean ====
section
/-! DEFINITION. The calibration coefficient extractor: `CAL_LOAD` and `EXT.C00` to `EXT.C30`
(40_calibration_extractor.md). -/

namespace Sys2Proof.Machine

/-- `CAL_LOAD` (40_calibration_extractor.md R121). -/
def execCalLoad (s : State) : Result :=
  match s.phase with
  | .failed => .next (refuse .eFatal s)
  | .ready => .next (refuse .eLocked s)
  | .unloaded => runReads .calLoad (fun staged => commitCoefs (decodeImage (calImage staged))) s

/-- `EXT.C00` (40_calibration_extractor.md R113). -/
def execExtC00 (b0 b1 b2 : Byte) (s : State) : Result := .next (giveValue (valueC00 b0 b1 b2) s)

/-- `EXT.C10` (40_calibration_extractor.md R114). -/
def execExtC10 (b2 b3 b4 : Byte) (s : State) : Result := .next (giveValue (valueC10 b2 b3 b4) s)

/-- `EXT.C01` (40_calibration_extractor.md R115). -/
def execExtC01 (b5 b6 : Byte) (s : State) : Result := .next (giveValue (value16 b5 b6) s)

/-- `EXT.C11` (40_calibration_extractor.md R116). -/
def execExtC11 (b7 b8 : Byte) (s : State) : Result := .next (giveValue (value16 b7 b8) s)

/-- `EXT.C20` (40_calibration_extractor.md R117). -/
def execExtC20 (b9 b10 : Byte) (s : State) : Result := .next (giveValue (value16 b9 b10) s)

/-- `EXT.C21` (40_calibration_extractor.md R118). -/
def execExtC21 (b11 b12 : Byte) (s : State) : Result := .next (giveValue (value16 b11 b12) s)

/-- `EXT.C30` (40_calibration_extractor.md R119). -/
def execExtC30 (b13 b14 : Byte) (s : State) : Result := .next (giveValue (value16 b13 b14) s)

end Sys2Proof.Machine
end

