-- ==== Sys2Proof/Machine/Numerics.lean ====
section
/-! DEFINITION. The floating-point numerics (42_compensation_pipeline.md R155 to R162): the formats, the one rounding,
the primitives `i2f`, `fdiv`, `fmul`, `fadd`, `fma` on exact rationals, and the bit patterns. -/

namespace Sys2Proof.Machine

/-- Precision `p`, significand bits with the hidden bit (42_compensation_pipeline.md R155). -/
def prec : Fmt → Nat
  | .binary32 => 24
  | .binary64 => 53

/-- `emin` (42_compensation_pipeline.md R155). -/
def emin : Fmt → Int
  | .binary32 => -126
  | .binary64 => -1022

/-- `emax`, which is also the bias of the exponent field (42_compensation_pipeline.md R155). -/
def emax : Fmt → Int
  | .binary32 => 127
  | .binary64 => 1023

/-- A value of the format: a signed zero, a finite non-zero number, an infinity, or a NaN. -/
inductive FVal where
  | zero (neg : Bool)
  | num (x : Rat)
  | inf (neg : Bool)
  | nan
deriving DecidableEq, Repr

/-- `2^k`. -/
def pow2 : Int → Rat
  | .ofNat n => ((2 ^ n : Nat) : Rat)
  | .negSucc n => mkRat 1 (2 ^ (n + 1))

/-- `|x|`. -/
def mag (x : Rat) : Rat := if x < 0 then -x else x

/-- `floor(log2 |x|)` for non-zero `x` (42_compensation_pipeline.md R156). -/
def ilog2 (x : Rat) : Int :=
  let k : Int := (x.num.natAbs.log2 : Int) - (x.den.log2 : Int)
  if pow2 k ≤ mag x then k else k - 1

/-- The integer nearest to `y`, the even one when `y` is half-way between two (42_compensation_pipeline.md R156). -/
def nearestEven (y : Rat) : Int :=
  let f := y.floor
  let r := y - (f : Rat)
  if r < mkRat 1 2 then f
  else if mkRat 1 2 < r then f + 1
  else if f % 2 = 0 then f
  else f + 1

/-- The spacing `q = 2^(e-p+1)` at `x`, `e = max(floor(log2 |x|), emin)` (42_compensation_pipeline.md R156). -/
def spacing (fmt : Fmt) (x : Rat) : Rat := pow2 (max (ilog2 x) (emin fmt) - (prec fmt : Int) + 1)

/-- `round_F(x)` (42_compensation_pipeline.md R156). The sign of a zero made by rounding a non-zero `x` is that of `x`
(log 14). -/
def roundF (fmt : Fmt) (x : Rat) : FVal :=
  if x = 0 then .zero false
  else
    let y := (nearestEven (x / spacing fmt x) : Rat) * spacing fmt x
    if y = 0 then .zero (decide (x < 0))
    else if pow2 (emax fmt + 1) ≤ mag y then .inf (decide (x < 0))
    else .num y

/-- The number a finite value stands for; infinities and NaNs stand for none. -/
def FVal.number : FVal → Option Rat
  | .zero _ => some 0
  | .num x => some x
  | .inf _ => none
  | .nan => none

/-- The sign bit; that of a NaN is not specified (42_compensation_pipeline.md R162; log 13). -/
def FVal.neg : FVal → Bool
  | .zero s => s
  | .num x => decide (x < 0)
  | .inf s => s
  | .nan => Config.nanSign

/-- `i2f(v) = round_F(v)`, and `+0` for `v = 0` (42_compensation_pipeline.md R157). -/
def i2f (fmt : Fmt) (v : Int) : FVal := roundF fmt (v : Rat)

/-- `fdiv` (42_compensation_pipeline.md R158); the cases with an infinity, a NaN or a zero divisor are the IEEE 754
defaults (R162; log 15). -/
def fdiv (fmt : Fmt) : FVal → FVal → FVal
  | .nan, _ => .nan
  | _, .nan => .nan
  | .inf _, .inf _ => .nan
  | .inf s, b => .inf (s ^^ b.neg)
  | a, .inf t => .zero (a.neg ^^ t)
  | .zero _, .zero _ => .nan
  | a, .zero t => .inf (a.neg ^^ t)
  | .zero s, b => .zero (s ^^ b.neg)
  | .num x, .num y => roundF fmt (x / y)

/-- `fmul` (42_compensation_pipeline.md R159); infinities and NaNs by the IEEE 754 defaults (R162; log 15). -/
def fmul (fmt : Fmt) : FVal → FVal → FVal
  | .nan, _ => .nan
  | _, .nan => .nan
  | .inf _, .zero _ => .nan
  | .zero _, .inf _ => .nan
  | .inf s, b => .inf (s ^^ b.neg)
  | a, .inf t => .inf (a.neg ^^ t)
  | .zero s, b => .zero (s ^^ b.neg)
  | a, .zero t => .zero (a.neg ^^ t)
  | .num x, .num y => roundF fmt (x * y)

/-- `fadd` (42_compensation_pipeline.md R160): an exact zero sum is `-0` only of two `-0`; `round_F(0)` is `+0`.
Infinities and NaNs by the IEEE 754 defaults (R162; log 15). -/
def fadd (fmt : Fmt) : FVal → FVal → FVal
  | .nan, _ => .nan
  | _, .nan => .nan
  | .inf s, .inf t => if s = t then .inf s else .nan
  | .inf s, _ => .inf s
  | _, .inf t => .inf t
  | .zero s, .zero t => .zero (s && t)
  | .zero _, .num y => roundF fmt y
  | .num x, .zero _ => roundF fmt x
  | .num x, .num y => roundF fmt (x + y)

/-- The exact product of `fma`, not rounded, its zero signed as in R159. -/
def exactProduct : FVal → FVal → FVal
  | .nan, _ => .nan
  | _, .nan => .nan
  | .inf _, .zero _ => .nan
  | .zero _, .inf _ => .nan
  | .inf s, b => .inf (s ^^ b.neg)
  | a, .inf t => .inf (a.neg ^^ t)
  | .zero s, b => .zero (s ^^ b.neg)
  | a, .zero t => .zero (a.neg ^^ t)
  | .num x, .num y => .num (x * y)

/-- `fma(a, b, c) = round_F(a * b + c)`, one rounding (42_compensation_pipeline.md R161). -/
def fma (fmt : Fmt) (a b c : FVal) : FVal := fadd fmt (exactProduct a b) c

/-- The fraction field's width, `p - 1` (42_compensation_pipeline.md R155). -/
def fracBits (fmt : Fmt) : Nat := prec fmt - 1

/-- The pattern from its three fields: sign, exponent field, fraction (42_compensation_pipeline.md R155). -/
def packFields (fmt : Fmt) (sign : Bool) (expField frac : Nat) : FloatBits :=
  match fmt with
  | .binary32 => .b32 (BitVec.ofBool sign ++ BitVec.ofNat 8 expField ++ BitVec.ofNat 23 frac : BitVec (1 + 8 + 23))
  | .binary64 => .b64 (BitVec.ofBool sign ++ BitVec.ofNat 11 expField ++ BitVec.ofNat 52 frac : BitVec (1 + 11 + 52))

/-- The exponent field of infinities and NaNs, all ones. -/
def expOnes : Fmt → Nat
  | .binary32 => 255
  | .binary64 => 2047

/-- The bit pattern of a value (42_compensation_pipeline.md R155): a number is `m * 2^(e-p+1)` with `e` as in R156; with
the hidden bit set it is normal, else subnormal. A NaN is quiet (R162), its sign and payload free (log 13). -/
def FVal.toBits (fmt : Fmt) : FVal → FloatBits
  | .zero s => packFields fmt s 0 0
  | .inf s => packFields fmt s (expOnes fmt) 0
  | .nan =>
    packFields fmt Config.nanSign (expOnes fmt)
      (2 ^ (fracBits fmt - 1) + Config.nanPayload % 2 ^ (fracBits fmt - 1))
  | .num x =>
    let m := (mag x / spacing fmt x).floor.toNat
    let e := max (ilog2 x) (emin fmt)
    if m < 2 ^ fracBits fmt then packFields fmt (decide (x < 0)) 0 m
    else packFields fmt (decide (x < 0)) (e + emax fmt).toNat (m - 2 ^ fracBits fmt)

/-- The value of three fields (42_compensation_pipeline.md R155): `(-1)^s * m * 2^(e-p+1)`. -/
def unpackFields (fmt : Fmt) (sign : Bool) (expField frac : Nat) : FVal :=
  if expField = expOnes fmt then
    if frac = 0 then .inf sign else .nan
  else if expField = 0 then
    if frac = 0 then .zero sign
    else .num ((if sign then -1 else 1) * (frac : Rat) * pow2 (emin fmt - (prec fmt : Int) + 1))
  else
    .num ((if sign then -1 else 1) * ((2 ^ fracBits fmt + frac : Nat) : Rat)
      * pow2 ((expField : Int) - emax fmt - (prec fmt : Int) + 1))

/-- The format a pattern is of. -/
def FloatBits.fmt : FloatBits → Fmt
  | .b32 _ => .binary32
  | .b64 _ => .binary64

/-- The value a pattern stands for (42_compensation_pipeline.md R155). -/
def FloatBits.value : FloatBits → FVal
  | .b32 v => unpackFields .binary32 (v.getLsbD 31) (v.extractLsb' 23 8).toNat (v.extractLsb' 0 23).toNat
  | .b64 v => unpackFields .binary64 (v.getLsbD 63) (v.extractLsb' 52 11).toNat (v.extractLsb' 0 52).toNat

end Sys2Proof.Machine
end

