-- ==== Sys2Proof/Machine/Pipeline.lean ====
section
/-! DEFINITION. Scaling, the two operation sequences and the function `comp` (42_compensation_pipeline.md R164 to
R173). -/

namespace Sys2Proof.Machine

/-- `KT` as a value of the format (00_scope.md R6). -/
def kT (fmt : Fmt) : FVal := i2f fmt Config.kT

/-- `KP` as a value of the format (00_scope.md R6). -/
def kP (fmt : Fmt) : FVal := i2f fmt Config.kP

/-- `ts = fdiv(i2f(T_RAW), KT)` (42_compensation_pipeline.md R164). -/
def tScaled (fmt : Fmt) (tRaw : Int) : FVal := fdiv fmt (i2f fmt tRaw) (kT fmt)

/-- `ps = fdiv(i2f(P_RAW), KP)` (42_compensation_pipeline.md R165). -/
def pScaled (fmt : Fmt) (pRaw : Int) : FVal := fdiv fmt (i2f fmt pRaw) (kP fmt)

/-- The values of one evaluation of `comp_separate`, named as in 42_compensation_pipeline.md R170. They are not state
(10_state.md R29). -/
structure SeparateTrace where
  ts : FVal
  ps : FVal
  a1 : FVal
  a2 : FVal
  a3 : FVal
  a4 : FVal
  a5 : FVal
  s1 : FVal
  b1 : FVal
  s2 : FVal
  d1 : FVal
  d2 : FVal
  d3 : FVal
  d4 : FVal
  s3 : FVal
deriving DecidableEq, Repr

/-- `MAC_MODE = SEPARATE`: every line is one rounded operation (42_compensation_pipeline.md R170). The listed order is
taken; no other is observable (93 U12). -/
def traceSeparate (fmt : Fmt) (c : CoefVals) (tRaw pRaw : Int) : SeparateTrace :=
  let ts := tScaled fmt tRaw
  let ps := pScaled fmt pRaw
  let a1 := fmul fmt ps (i2f fmt c.c30)
  let a2 := fadd fmt (i2f fmt c.c20) a1
  let a3 := fmul fmt ps a2
  let a4 := fadd fmt (i2f fmt c.c10) a3
  let a5 := fmul fmt ps a4
  let s1 := fadd fmt (i2f fmt c.c00) a5
  let b1 := fmul fmt ts (i2f fmt c.c01)
  let s2 := fadd fmt s1 b1
  let d1 := fmul fmt ps (i2f fmt c.c21)
  let d2 := fadd fmt (i2f fmt c.c11) d1
  let d3 := fmul fmt ts ps
  let d4 := fmul fmt d3 d2
  let s3 := fadd fmt s2 d4
  ⟨ts, ps, a1, a2, a3, a4, a5, s1, b1, s2, d1, d2, d3, d4, s3⟩

/-- The values of one evaluation of `comp_fused`, named as in 42_compensation_pipeline.md R171. -/
structure FusedTrace where
  ts : FVal
  ps : FVal
  a2 : FVal
  a4 : FVal
  s1 : FVal
  s2 : FVal
  d2 : FVal
  d3 : FVal
  s3 : FVal
deriving DecidableEq, Repr

/-- `MAC_MODE = FUSED`: every multiply-then-add pair is one `fma` (42_compensation_pipeline.md R171). -/
def traceFused (fmt : Fmt) (c : CoefVals) (tRaw pRaw : Int) : FusedTrace :=
  let ts := tScaled fmt tRaw
  let ps := pScaled fmt pRaw
  let a2 := fma fmt ps (i2f fmt c.c30) (i2f fmt c.c20)
  let a4 := fma fmt ps a2 (i2f fmt c.c10)
  let s1 := fma fmt ps a4 (i2f fmt c.c00)
  let s2 := fma fmt ts (i2f fmt c.c01) s1
  let d2 := fma fmt ps (i2f fmt c.c21) (i2f fmt c.c11)
  let d3 := fmul fmt ts ps
  let s3 := fma fmt d3 d2 s2
  ⟨ts, ps, a2, a4, s1, s2, d2, d3, s3⟩

/-- The function `comp`, on any integers (42_compensation_pipeline.md R172). -/
def comp (params : Params) (c : CoefVals) (tRaw pRaw : Int) : FVal :=
  match params.macMode with
  | .separate => (traceSeparate params.fmt c tRaw pRaw).s3
  | .fused => (traceFused params.fmt c tRaw pRaw).s3

end Sys2Proof.Machine
end

