-- ==== Sys2Proof/Machine/Compensate.lean ====
section
/-! DEFINITION. `COMP` (42_compensation_pipeline.md R176, R177). -/

namespace Sys2Proof.Machine

/-- The pattern that `COMP` puts into `PRESSURE`, stored as computed (42_compensation_pipeline.md R176). -/
def pressureOf (params : Params) (c : Coefs) (tRaw pRaw : BitVec 24) : FloatBits :=
  (comp params (coefValues c) (signedValue tRaw) (signedValue pRaw)).toBits params.fmt

/-- `COMP` (42_compensation_pipeline.md R176). Each register is read under its guard; a guard that is set over a register
without a value, which no run reaches, is a fault (00_scope.md R12; log 8). -/
def execComp (s : State) : Result :=
  match s.phase with
  | .failed => .next (refuse .eFatal s)
  | .unloaded => .next (refuse .eNoCal s)
  | .ready =>
    if s.pFresh = false ∨ s.tFresh = false then .next (refuse .eStale s)
    else
      match readCoefs s, readTRaw s, readPRaw s with
      | some c, some t, some p => .next (complete (commitPressure (pressureOf s.params c t p) s))
      | _, _, _ => .fault .noValue

end Sys2Proof.Machine
end

