-- ==== Sys2Proof/Machine/Control.lean ====
section
/-! DEFINITION. `NOP` (43_control.md R191), and what the dispatcher does with a reserved code (R190). -/

namespace Sys2Proof.Machine

/-- `NOP`: it "writes no state, and does not write `RES`" (43_control.md R191). -/
def execNop (s : State) : Result := .next s

/-- A reserved command code: `refuse E_ILLCMD`, in every phase (30_encoding.md R82, 60_exceptions.md R214, R218). -/
def refuseReserved (s : State) : Result := .next (refuse .eIllCmd s)

end Sys2Proof.Machine
end

