-- ==== Sys2Proof/Machine/Sample.lean ====
section
/-! DEFINITION. The sample front end: `RD_PRS`, `RD_TMP`, `EXT.PRAW`, `EXT.TRAW` (41_sample_decode.md). -/

namespace Sys2Proof.Machine

/-- `RD_PRS` (41_sample_decode.md R144). -/
def execRdPrs (s : State) : Result :=
  match s.phase with
  | .failed => .next (refuse .eFatal s)
  | .unloaded => runReads .rdPrs (fun staged => commitPRaw (decodeSample (rawImage staged))) s
  | .ready => runReads .rdPrs (fun staged => commitPRaw (decodeSample (rawImage staged))) s

/-- `RD_TMP` (41_sample_decode.md R145). -/
def execRdTmp (s : State) : Result :=
  match s.phase with
  | .failed => .next (refuse .eFatal s)
  | .unloaded => runReads .rdTmp (fun staged => commitTRaw (decodeSample (rawImage staged))) s
  | .ready => runReads .rdTmp (fun staged => commitTRaw (decodeSample (rawImage staged))) s

/-- `EXT.PRAW` (41_sample_decode.md R141). -/
def execExtPraw (s0 s1 s2 : Byte) (s : State) : Result := .next (giveValue (valueRaw s0 s1 s2) s)

/-- `EXT.TRAW` (41_sample_decode.md R142). -/
def execExtTraw (s0 s1 s2 : Byte) (s : State) : Result := .next (giveValue (valueRaw s0 s1 s2) s)

end Sys2Proof.Machine
end

