-- ==== Sys2Proof/Machine/Dispatch.lean ====
section
/-! DEFINITION. The meaning of each instruction, one arm per constructor (43_control.md R190). -/

namespace Sys2Proof.Machine

/-- What an instruction does to a state. -/
def exec (i : Instr) (s : State) : Host.Outcome State Fault Refusal :=
  match i with
  | .nop => Sys2Proof.Machine.execNop s
  | .calLoad => Sys2Proof.Machine.execCalLoad s
  | .rdPrs => Sys2Proof.Machine.execRdPrs s
  | .rdTmp => Sys2Proof.Machine.execRdTmp s
  | .comp => Sys2Proof.Machine.execComp s
  | .extC00 b0 b1 b2 => Sys2Proof.Machine.execExtC00 b0 b1 b2 s
  | .extC10 b2 b3 b4 => Sys2Proof.Machine.execExtC10 b2 b3 b4 s
  | .extC01 b5 b6 => Sys2Proof.Machine.execExtC01 b5 b6 s
  | .extC11 b7 b8 => Sys2Proof.Machine.execExtC11 b7 b8 s
  | .extC20 b9 b10 => Sys2Proof.Machine.execExtC20 b9 b10 s
  | .extC21 b11 b12 => Sys2Proof.Machine.execExtC21 b11 b12 s
  | .extC30 b13 b14 => Sys2Proof.Machine.execExtC30 b13 b14 s
  | .extPraw s0 s1 s2 => Sys2Proof.Machine.execExtPraw s0 s1 s2 s
  | .extTraw s0 s1 s2 => Sys2Proof.Machine.execExtTraw s0 s1 s2 s

end Sys2Proof.Machine
end

