-- ==== Sys2Proof/Machine/Inputs.lean ====
section
/-! DEFINITION. What the world outside does between commands: the host's writes to the device (70_reset_and_hazards.md
R245), the device's own changes (20_memory.md R70; log 20, log 26), and the pseudo-operations `INIT` and `MEASURE` (30_encoding.md
R91). -/

namespace Sys2Proof.Machine

/-- The register addresses of the configuration registers (20_memory.md R53). -/
def ConfigReg.addr : ConfigReg → RegAddr
  | .prsCfg => 0x06#8
  | .tmpCfg => 0x07#8
  | .trigger => 0x08#8
  | .shiftCfg => 0x09#8

/-- The world outside changes; the block does not. -/
def mapEnv (f : Env → Env) (s : State) : State := { s with env := f s.env }

/-- The host's `MemWrite`: the device's register takes the value. After a failed write its content is not known
(70_reset_and_hazards.md R245, 93 U13, U15; log 22). The block's state is untouched. -/
def hostWrite (reg : ConfigReg) (v : Byte) (ok : Bool) (s : State) : State :=
  mapEnv (fun e => { e with device :=
    if ok then e.device.store reg.addr.toNat v else e.device.forget reg.addr.toNat }) s

/-- The device changes a register on its own (20_memory.md R70); the block does not see it. DESIGN CHOICE (log 26): the
spec gives no form for a re-initialised or exchanged device (70_reset_and_hazards.md R241, R251), so any address may
change, 0x13 to 0x21 included, and such a device is a run of these changes. -/
def deviceChange (addr : RegAddr) (v : Byte) (s : State) : State :=
  mapEnv (fun e => { e with device := e.device.store addr.toNat v }) s

/-- `INIT`: "reset; then the host's configuration writes of `20_memory.md rule R58` (0x06, 0x07, 0x09); then
`CAL_LOAD`" (30_encoding.md R91, 70_reset_and_hazards.md R242). -/
def initInputs : List Input :=
  [.reset, .configWrite .prsCfg 0x26#8 true, .configWrite .tmpCfg 0xA0#8 true, .configWrite .shiftCfg 0x04#8 true,
   .present (.cmd 0b001#3)]

/-- `MEASURE` (30_encoding.md R91, 70_reset_and_hazards.md R243). The waits `T_CONV_P`, `T_CONV_T` are untimed (log
21). -/
def measureInputs : List Input :=
  [.configWrite .trigger 0x01#8 true, .present (.cmd 0b010#3),
   .configWrite .trigger 0x02#8 true, .present (.cmd 0b011#3), .present (.cmd 0b100#3)]

end Sys2Proof.Machine
end

