-- ==== Sys2Proof/Machine/Step.lean ====
section
/-! DEFINITION. One step: the block waits, or the next act of the world outside takes place; a presented word is decoded
and its instruction run to its end (43_control.md R190, R192; log 1, log 23). -/

namespace Sys2Proof.Machine

/-- The state once the input at hand is taken. -/
def takeInput (rest : List Input) (s : State) : State := mapEnv (fun e => { e with inputs := rest }) s

/-- A presented word is decoded and its instruction runs; a reserved code is refused (43_control.md R190). -/
def dispatch (word : CodeWord) (s : State) : Host.Outcome State Fault Refusal :=
  match decode word with
  | .ok i => exec i s
  | .error _ => refuseReserved s

/-- One step. With no input the block waits for a command and nothing changes (43_control.md R190). -/
def step (s : State) : Host.Outcome State Fault Refusal :=
  match s.env.inputs with
  | [] => .next s
  | .present word :: rest => dispatch word (takeInput rest s)
  | .reset :: rest => .next (resetBlock (takeInput rest s))
  | .configWrite reg v ok :: rest => .next (hostWrite reg v ok (takeInput rest s))
  | .deviceChanges addr v :: rest => .next (deviceChange addr v (takeInput rest s))

/-- The state in which a word, numbered as opcode_table.json numbers it, is presented next (log 1). A number that is no
word of the table presents nothing. -/
def State.withFetchWord (s : State) (nbits w : Nat) : State :=
  match tableWord nbits w with
  | some word => takeInput (.present word :: s.env.inputs) s
  | none => s

end Sys2Proof.Machine
end

