-- ==== Sys2Proof/Machine/Outputs.lean ====
section
/-! DEFINITION. The status outputs: "wires the host reads, not instructions" (43_control.md R197). `PHASE`, `RES` and the
flags are always readable, each data register only under its guard (10_state.md R24; D16). -/

namespace Sys2Proof.Machine

/-- What the host can look at (60_exceptions.md R229). -/
inductive Port where
  | phase | res | pFresh | tFresh | pressureValid | calValid
  | coef (k : CalFn)
  | pRaw | tRaw | pressure
deriving DecidableEq, Repr

/-- What the host sees. -/
inductive Seen where
  | phase (p : Phase)
  | code (bits : BitVec 3)
  | flag (b : Bool)
  | int (v : Int)
  | float (bits : FloatBits)
deriving DecidableEq, Repr

/-- A guarded register shows its value, or there is none to see: a fault, "not a value" (D16, 93 U1). -/
def guarded {α : Type} (show' : α → Seen) (reg : Option α) : Except Fault Seen :=
  match reg with
  | some v => .ok (show' v)
  | none => .error .noValue

/-- Reading a status output (10_state.md R24, 00_scope.md R12). -/
def observe (p : Port) (s : State) : Except Fault Seen :=
  match p with
  | .phase => .ok (.phase s.phase)
  | .res => .ok (.code (resBits s.res))
  | .pFresh => .ok (.flag s.pFresh)
  | .tFresh => .ok (.flag s.tFresh)
  | .pressureValid => .ok (.flag s.pressureValid)
  | .calValid => .ok (.flag (calValid s))
  | .coef k => guarded (fun c => .int ((coefValues c).get k)) (readCoefs s)
  | .pRaw => guarded (fun v => .int (signedValue v)) (readPRaw s)
  | .tRaw => guarded (fun v => .int (signedValue v)) (readTRaw s)
  | .pressure => guarded .float (readPressure s)

end Sys2Proof.Machine
end

