-- ==== Sys2Proof/Safety.lean ====
section
/-! DEFINITION. What a good state and a safe run are, in the terms the statements use. -/

namespace Sys2Proof.Machine

/-- The coefficient registers have values exactly when `PHASE = READY` (10_state.md R24, 40_calibration_extractor.md
R122). -/
def coefGuardHolds (s : State) : Bool := s.coef.isSome == (s.phase == .ready)

/-- A set freshness flag stands over a register that holds a value (10_state.md R26). -/
def sampleGuardsHold (s : State) : Bool := (!s.pFresh || s.pRaw.isSome) && (!s.tFresh || s.tRaw.isSome)

/-- `PRESSURE` holds a value exactly when `PRESSURE_VALID = 1`, and it is of the format `FMT` (10_state.md R27, R28). -/
def pressureGuardHolds (s : State) : Bool :=
  (s.pressure.isSome == s.pressureValid) &&
    (match s.pressure with
     | none => true
     | some v => decide (v.fmt = s.params.fmt))

/-- The invariant of the machine: every guard tells the truth, and the device's contents are in canonical form. -/
def Good (s : State) : Bool :=
  coefGuardHolds s && sampleGuardsHold s && pressureGuardHolds s && Memory.wf s.env.device

/-- The `MemRead` events of a command, from loop index `idx` on, with the given answers (20_memory.md R71). -/
def readEvents (base : RegAddr) : (idx : Nat) → List (Option Byte) → List ReadEvent
  | _, [] => []
  | idx, a :: rest => ⟨base + BitVec.ofNat 8 idx, a⟩ :: readEvents base (idx + 1) rest

/-- The world outside after the reads of a command that were answered as given: as many listed replies are used up, the
events are recorded, and nothing else changes (20_memory.md R71). -/
def afterReads (base : RegAddr) (answers : List (Option Byte)) (e : Env) : Env :=
  { e with replies := e.replies.drop answers.length, history := e.history ++ readEvents base 0 answers }

/-- No answer that is listed asserts reset in the middle of a command. -/
def noResetListed (s : State) : Prop := Reply.reset ∉ s.env.replies

/-- Every read is answered in the end, "the only liveness assumption" (70_reset_and_hazards.md R254). -/
def everyReadAnswered (s : State) : Prop := Reply.never ∉ s.env.replies

/-- The next input is not the reset input. -/
def nextIsNotReset (s : State) : Prop := ∀ rest, s.env.inputs ≠ Input.reset :: rest

/-- The state of the block proper is the same in both states, whatever stands outside (10_state.md R20). -/
def sameBlock (s t : State) : Prop :=
  t.params = s.params ∧ t.phase = s.phase ∧ t.coef = s.coef ∧ t.pRaw = s.pRaw ∧ t.tRaw = s.tRaw ∧
    t.pFresh = s.pFresh ∧ t.tFresh = s.tFresh ∧ t.pressure = s.pressure ∧ t.pressureValid = s.pressureValid ∧
    t.res = s.res

/-- The five commands, which the host can issue; an extraction function is none (30_encoding.md R81, R90). -/
def isCommand : Instr → Bool
  | .nop => true
  | .calLoad => true
  | .rdPrs => true
  | .rdTmp => true
  | .comp => true
  | .extC00 _ _ _ => false
  | .extC10 _ _ _ => false
  | .extC01 _ _ => false
  | .extC11 _ _ => false
  | .extC20 _ _ => false
  | .extC21 _ _ => false
  | .extC30 _ _ => false
  | .extPraw _ _ _ => false
  | .extTraw _ _ _ => false

/-- The instruction of each reading command. -/
def Reader.instr : Reader → Instr
  | .calLoad => .calLoad
  | .rdPrs => .rdPrs
  | .rdTmp => .rdTmp

/-- The acceptance matrix, written cell by cell (43_control.md R196): the code a command is refused with, `none` where
it runs. -/
def refusalCode (i : Instr) (s : State) : Option ResultCode :=
  match i, s.phase with
  | .calLoad, .ready => some .eLocked
  | .calLoad, .failed => some .eFatal
  | .rdPrs, .failed => some .eFatal
  | .rdTmp, .failed => some .eFatal
  | .comp, .unloaded => some .eNoCal
  | .comp, .ready => if s.pFresh && s.tFresh then none else some .eStale
  | .comp, .failed => some .eFatal
  | _, _ => none

/-- A number the format represents: an integer of at most `p` bits times a power of two the format has, below
`2^(emax+1)` (42_compensation_pipeline.md R155). -/
def Representable (fmt : Fmt) (x : ℚ) : Prop :=
  |x| < (2 : ℚ) ^ (emax fmt + 1) ∧
    ∃ (m : Int) (k : Int), emin fmt - (prec fmt : Int) + 1 ≤ k ∧ |m| < 2 ^ prec fmt ∧ x = m * (2 : ℚ) ^ k

/-- `v` is a finite value of the format and stands for `x`: a zero of either sign, or a representable non-zero number
(42_compensation_pipeline.md R155). -/
def FiniteValue (fmt : Fmt) (v : FVal) (x : ℚ) : Prop :=
  (x = 0 ∧ ∃ s, v = .zero s) ∨ (x ≠ 0 ∧ Representable fmt x ∧ v = .num x)

/-- Every value of one evaluation (42_compensation_pipeline.md R170). -/
def SeparateTrace.all (t : SeparateTrace) : List FVal :=
  [t.ts, t.ps, t.a1, t.a2, t.a3, t.a4, t.a5, t.s1, t.b1, t.s2, t.d1, t.d2, t.d3, t.d4, t.s3]

/-- Every value of one evaluation (42_compensation_pipeline.md R171). -/
def FusedTrace.all (t : FusedTrace) : List FVal :=
  [t.ts, t.ps, t.a2, t.a4, t.s1, t.s2, t.d2, t.d3, t.s3]

/-- The source's formula in exact arithmetic (42_compensation_pipeline.md R166). -/
def exactPressure (c : CoefVals) (tRaw pRaw : Int) : ℚ :=
  let p : ℚ := (pRaw : ℚ) / Config.kP
  let t : ℚ := (tRaw : ℚ) / Config.kT
  c.c00 + p * (c.c10 + p * (c.c20 + p * c.c30)) + t * c.c01 + t * p * (c.c11 + p * c.c21)

end Sys2Proof.Machine
end

