-- ==== Sys2Proof/Certificates/Slice0/Obligations.lean ====
section
/-! DEFINITION. The statements about the model, each with the rule of spec/ it formalises. A statement about a value or a
form the model chose says so and names the log entry. -/

open Sys2Proof Sys2Proof.Machine

/-! ### Encodings -/

/-- The five command codes decode to their commands and the three reserved codes to nothing (30_encoding.md R81); an
image is decoded to an extraction function's operand bytes (R83, R86). Words of the table's two image formats name no
row (mask 0): `decodeTableWord` takes the first row of the format, a choice of the model (log 6). -/
def Obligations.TableWordsDecode : Prop :=
  decodeTableWord 8 0b000 = some .nop ∧ decodeTableWord 8 0b001 = some .calLoad ∧
  decodeTableWord 8 0b010 = some .rdPrs ∧ decodeTableWord 8 0b011 = some .rdTmp ∧
  decodeTableWord 8 0b100 = some .comp ∧ decodeTableWord 8 0b101 = none ∧
  decodeTableWord 8 0b110 = none ∧ decodeTableWord 8 0b111 = none ∧
  decode (.cal15 .c10 0x0102030405060708090A0B0C0D0E0F#120) = .ok (.extC10 0x03#8 0x04#8 0x05#8) ∧
  decode (.cal15 .c21 0x0102030405060708090A0B0C0D0E0F#120) = .ok (.extC21 0x0C#8 0x0D#8) ∧
  decode (.raw3 .traw 0x032656#24) = .ok (.extTraw 0x03#8 0x26#8 0x56#8)

/-- Decode and encode agree on every instruction, with every operand at every value: no bit of an encoding is dropped
(30_encoding.md R81, R83, R86). -/
def Obligations.DecodeOfEncode : Prop :=
  ∀ i : Instr, i.wellFormed = true → (encode i).wellFormed = true ∧ decode (encode i) = .ok i

/-- Decoding is total, and exactly the reserved command codes have no instruction (30_encoding.md R82, R94). -/
def Obligations.ReservedCodesHaveNoInstruction : Prop :=
  ∀ w : CodeWord, ((∃ i, decode w = .ok i) ↔ w.wellFormed = true) ∧
    ((∃ e, decode w = .error e) ↔ w = .cmd 0b101#3 ∨ w = .cmd 0b110#3 ∨ w = .cmd 0b111#3)

/-- The extractor is total on bytes and a bijection between images and in-range tuples (40_calibration_extractor.md
R124): every load whose 15 reads are answered completes OK with seven in-range values, no two images give the same
values, and every in-range tuple comes from an image. -/
def Obligations.ImagesAndTuplesCorrespond : Prop :=
  (∀ (s : State) (bytes : List Byte) (rest : List Reply), s.phase = .unloaded → bytes.length = 15 →
    s.env.replies = bytes.map Reply.byte ++ rest →
    ∃ t c, exec .calLoad s = .next t ∧ t.res = .ok ∧ t.phase = .ready ∧ t.coef = some c ∧
      c = decodeImage (calImage bytes) ∧ (coefValues c).wellFormed = true) ∧
  (∀ img img' : BitVec 120, coefValues (decodeImage img) = coefValues (decodeImage img') → img = img') ∧
  (∀ c : CoefVals, c.wellFormed = true → ∃ img : BitVec 120, coefValues (decodeImage img) = c) ∧
  (∀ bytes bytes' : List Byte, bytes.length = 15 → bytes'.length = 15 → calImage bytes = calImage bytes' →
    bytes = bytes')

/-- The round trip: for every tuple of seven integers in range, decoding `pack` of it gives it back
(40_calibration_extractor.md R125, 30_encoding.md R92). -/
def Obligations.PackThenExtractIsIdentity : Prop :=
  ∀ c : CoefVals, c.wellFormed = true →
    (pack c).length = 15 ∧ coefValues (decodeImage (calImage (pack c))) = c

/-- Sign extension in a wider container (40_calibration_extractor.md R111): `sext_N(U)` is the value of the container
whose low `N` bits are `U` and whose upper bits all equal the top bit of `U`; with that bit set the container is
`U | (2^W - 2^N)`, otherwise `U`; with the three masks of the rule. -/
def Obligations.SignExtensionInAContainer : Prop :=
  (∀ (n w : Nat) (u : BitVec n), 0 < n → n < w →
    (u.signExtend w).toInt = sext n u.toNat ∧
    (u.signExtend w).toNat =
      if u.getLsbD (n - 1) then u.toNat ||| (2 ^ w - 2 ^ n) else u.toNat) ∧
  2 ^ 32 - 2 ^ 20 = 0xFFF00000 ∧ 2 ^ 32 - 2 ^ 16 = 0xFFFF0000 ∧ 2 ^ 32 - 2 ^ 24 = 0xFF000000

/-- The law of sign extension (00_scope.md R9): `U` if the top bit is clear, else `U - 2^N`, and the result lies in
`-2^(N-1) .. 2^(N-1)-1`. -/
def Obligations.SignExtensionLaw : Prop :=
  ∀ (n : Nat) (u : BitVec n), 0 < n →
    signedValue u = (if u.toNat < 2 ^ (n - 1) then (u.toNat : Int) else (u.toNat : Int) - 2 ^ n) ∧
    (u.getLsbD (n - 1) = true ↔ signedValue u < 0) ∧
    -(2 ^ (n - 1)) ≤ signedValue u ∧ signedValue u ≤ 2 ^ (n - 1) - 1

/-! ### The step -/

/-- A step runs the decoded instruction: with a word presented next that decodes to `i`, `step` is `exec i` on the state
with that input taken; with no input the block waits and nothing changes (43_control.md R190). That the coming inputs
stand in a list of the state is the model's form (log 1). -/
def Obligations.StepRunsThePresentedInstruction : Prop :=
  (∀ (s : State) (word : CodeWord) (i : Instr) (rest : List Input), s.env.inputs = .present word :: rest →
    decode word = .ok i → step s = exec i { s with env := { s.env with inputs := rest } }) ∧
  (∀ s : State, s.env.inputs = [] → step s = .next s) ∧
  (∀ (s : State) (nbits w : Nat) (i : Instr), decodeTableWord nbits w = some i →
    step (s.withFetchWord nbits w) = exec i s)

/-- A reserved command code is refused with `E_ILLCMD`, `RES = 110`, in every phase; nothing but `RES` changes and no
read is issued (30_encoding.md R82). -/
def Obligations.ReservedCodeIsRefused : Prop :=
  ∀ (s : State) (code : BitVec 3) (rest : List Input), code = 0b101#3 ∨ code = 0b110#3 ∨ code = 0b111#3 →
    s.env.inputs = .present (.cmd code) :: rest →
    ∃ t, step s = .next t ∧ t = { s with res := .eIllCmd, env := { s.env with inputs := rest } } ∧
      resBits t.res = 0b110#3

/-- Reset puts every piece of the block's state at the value of 10_state.md R38 and does not touch the device (R39,
70_reset_and_hazards.md R240); `State.reset` is such a state. The parameters are kept, and what stands outside the
block. -/
def Obligations.ResetValues : Prop :=
  (∀ (s : State) (rest : List Input), s.env.inputs = .reset :: rest →
    ∃ t, step s = .next t ∧ t.phase = .unloaded ∧ t.coef = none ∧ t.pRaw = none ∧ t.tRaw = none ∧
      t.pFresh = false ∧ t.tFresh = false ∧ t.pressure = none ∧ t.pressureValid = false ∧ t.res = .ok ∧
      t.params = s.params ∧ t.env = { s.env with inputs := rest }) ∧
  State.reset.phase = .unloaded ∧ State.reset.coef = none ∧ State.reset.pRaw = none ∧ State.reset.tRaw = none ∧
  State.reset.pFresh = false ∧ State.reset.tFresh = false ∧ State.reset.pressure = none ∧
  State.reset.pressureValid = false ∧ State.reset.res = .ok

/-- Reset asserted while a command waits for a read abandons the command: the block is in its reset state, the device
has seen the reads so far (70_reset_and_hazards.md R240, 93 U8). That the reset stands in the list of replies is the
model's form (log 4). -/
def Obligations.ResetAbandonsARunningCommand : Prop :=
  ∀ (who : Reader) (s : State) (got : List Byte) (rest : List Reply),
    refusalCode who.instr s = none → got.length < who.count →
    s.env.replies = got.map Reply.byte ++ .reset :: rest →
    exec who.instr s =
      .next (State.resetWith s.params
        { s.env with
          replies := rest
          history := s.env.history ++ readEvents who.base 0 (got.map some ++ [none]) })

/-- A transport that never answers leaves the command stuck: it commits nothing and never ends (93 U5, 43_control.md
R192). That it stands in the list of replies is the model's form (log 3). -/
def Obligations.UnansweredReadIsStuck : Prop :=
  ∀ (who : Reader) (s : State) (got : List Byte) (rest : List Reply),
    refusalCode who.instr s = none → got.length < who.count →
    s.env.replies = got.map Reply.byte ++ .never :: rest →
    exec who.instr s = .fault .transportNeverAnswers

/-- A host write changes one register of the device and nothing of the block (70_reset_and_hazards.md R245); the bytes of
every other register read as before. That a failed write leaves the register's content unknown is the model's choice
(log 22). -/
def Obligations.HostWriteLeavesTheBlock : Prop :=
  ∀ (s : State) (reg : ConfigReg) (v : Byte) (ok : Bool) (rest : List Input),
    s.env.inputs = .configWrite reg v ok :: rest →
    ∃ t, step s = .next t ∧ sameBlock s t ∧ t.env.replies = s.env.replies ∧ t.env.history = s.env.history ∧
      t.env.inputs = rest ∧
      t.env.device.lookup reg.addr.toNat = (if ok then some v else none) ∧
      (∀ a : Nat, a ≠ reg.addr.toNat → t.env.device.lookup a = s.env.device.lookup a) ∧
      (Memory.wf s.env.device = true → Memory.wf t.env.device = true)

/-- The device's own change of a register is not seen by the block until it reads (20_memory.md R70). That any register
may change, and that a re-initialised or exchanged device is a run of such changes, is the model's choice (log 26). -/
def Obligations.DeviceChangeLeavesTheBlock : Prop :=
  ∀ (s : State) (addr : RegAddr) (v : Byte) (rest : List Input),
    s.env.inputs = .deviceChanges addr v :: rest →
    ∃ t, step s = .next t ∧ sameBlock s t ∧ t.env.history = s.env.history ∧
      t.env.device.lookup addr.toNat = some v ∧
      (∀ a : Nat, a ≠ addr.toNat → t.env.device.lookup a = s.env.device.lookup a)

/-! ### NOP -/

/-- `NOP` "issues no `MemRead`, writes no state, and does not write `RES`", in every phase (43_control.md R191). -/
def Obligations.NopChangesNothing : Prop :=
  (∀ s : State, exec .nop s = .next s) ∧
  (∀ (s : State) (rest : List Input), s.env.inputs = .present (.cmd 0b000#3) :: rest →
    ∃ t, step s = .next t ∧ sameBlock s t ∧ t.env = { s.env with inputs := rest })

/-! ### The calibration coefficient extractor -/

/-- `CAL_LOAD` (40_calibration_extractor.md R121): refused in `FAILED` and `READY`; in `UNLOADED`, with its 15 reads
answered, it commits the seven fields assembled by the rule's formulas (read as numbers by sign extension), enters
`READY`, sets `RES` to OK and touches nothing else. -/
def Obligations.CalLoadLoadsTheImage : Prop :=
  ∀ s : State,
    (s.phase = .failed → exec .calLoad s = .next { s with res := .eFatal }) ∧
    (s.phase = .ready → exec .calLoad s = .next { s with res := .eLocked }) ∧
    (∀ (b0 b1 b2 b3 b4 b5 b6 b7 b8 b9 b10 b11 b12 b13 b14 : Byte) (rest : List Reply), s.phase = .unloaded →
      s.env.replies =
        [b0, b1, b2, b3, b4, b5, b6, b7, b8, b9, b10, b11, b12, b13, b14].map Reply.byte ++ rest →
      ∃ c : Coefs,
        exec .calLoad s = .next { s with
          coef := some c, phase := .ready, res := .ok,
          env := { s.env with
            replies := rest
            history := s.env.history ++ readEvents 0x13#8 0
              ([b0, b1, b2, b3, b4, b5, b6, b7, b8, b9, b10, b11, b12, b13, b14].map some) } } ∧
        signedValue c.c00 = sext 20 ((b0.toNat <<< 12) ||| (b1.toNat <<< 4) ||| (b2.toNat >>> 4)) ∧
        signedValue c.c10 = sext 20 (((b2.toNat &&& 0x0F) <<< 16) ||| (b3.toNat <<< 8) ||| b4.toNat) ∧
        signedValue c.c01 = sext 16 ((b5.toNat <<< 8) ||| b6.toNat) ∧
        signedValue c.c11 = sext 16 ((b7.toNat <<< 8) ||| b8.toNat) ∧
        signedValue c.c20 = sext 16 ((b9.toNat <<< 8) ||| b10.toNat) ∧
        signedValue c.c21 = sext 16 ((b11.toNat <<< 8) ||| b12.toNat) ∧
        signedValue c.c30 = sext 16 ((b13.toNat <<< 8) ||| b14.toNat))

/-- `CAL_LOAD` whose read number `j` fails (40_calibration_extractor.md R123): no read after it, no coefficient written,
`PHASE <- FAILED`, `RES <- E_TRANSPORT`, nothing else; and after it every command but `NOP` is refused. -/
def Obligations.FailedLoadIsFatal : Prop :=
  ∀ (s : State) (got : List Byte) (rest : List Reply), s.phase = .unloaded → got.length < 15 →
    s.env.replies = got.map Reply.byte ++ .failed :: rest →
    ∃ t, exec .calLoad s = .next t ∧
      t = { s with
        phase := .failed, res := .eTransport,
        env := { s.env with
          replies := rest
          history := s.env.history ++ readEvents 0x13#8 0 (got.map some ++ [none]) } } ∧
      exec .nop t = .next t ∧
      ∀ i : Instr, i = .calLoad ∨ i = .rdPrs ∨ i = .rdTmp ∨ i = .comp → exec i t = .next { t with res := .eFatal }

/-- `EXT.C00` and `EXT.C10` (40_calibration_extractor.md section 2): the 20-bit values by the rules' formulas; the block
and everything else outside are unchanged. That the value is given out in `extOut` is the model's form (log 5). -/
def Obligations.TwentyBitExtractions : Prop :=
  ∀ (s : State) (b0 b1 b2 b3 b4 : Byte),
    exec (.extC00 b0 b1 b2) s = .next { s with env := { s.env with
      extOut := some (sext 20 ((b0.toNat <<< 12) ||| (b1.toNat <<< 4) ||| (b2.toNat >>> 4))) } } ∧
    exec (.extC10 b2 b3 b4) s = .next { s with env := { s.env with
      extOut := some (sext 20 (((b2.toNat &&& 0x0F) <<< 16) ||| (b3.toNat <<< 8) ||| b4.toNat)) } }

/-- `EXT.C01`, `EXT.C11`, `EXT.C20`, `EXT.C21`, `EXT.C30` (40_calibration_extractor.md section 2): the 16-bit values;
the block and everything else outside are unchanged. `extOut` is the model's form (log 5). -/
def Obligations.SixteenBitExtractions : Prop :=
  ∀ (s : State) (high low : Byte) (i : Instr),
    i = .extC01 high low ∨ i = .extC11 high low ∨ i = .extC20 high low ∨ i = .extC21 high low ∨
      i = .extC30 high low →
    exec i s = .next { s with env := { s.env with
      extOut := some (sext 16 ((high.toNat <<< 8) ||| low.toNat)) } }

/-- The two nibbles of the shared byte are independent: changing one changes exactly one coefficient
(40_calibration_extractor.md R120). -/
def Obligations.SharedByteNibblesAreIndependent : Prop :=
  ∀ (b0 b1 b2 b2' : Byte) (tail : List Byte), tail.length = 12 → b2 ≠ b2' →
    let c := decodeImage (calImage (b0 :: b1 :: b2 :: tail))
    let c' := decodeImage (calImage (b0 :: b1 :: b2' :: tail))
    (splitShared b2).1.toNat = b2.toNat >>> 4 ∧ (splitShared b2).2.toNat = b2.toNat &&& 0x0F ∧
    c.c00.toNat % 16 = (splitShared b2).1.toNat ∧ c.c10.toNat / 65536 = (splitShared b2).2.toNat ∧
    ((splitShared b2).2 = (splitShared b2').2 → c.c00 ≠ c'.c00 ∧ c' = { c with c00 := c'.c00 }) ∧
    ((splitShared b2).1 = (splitShared b2').1 → c.c10 ≠ c'.c10 ∧ c' = { c with c10 := c'.c10 })

/-- What `CAL_LOAD` puts into coefficient register `C[k]` is what the extraction function of row `k` gives on the same
image (40_calibration_extractor.md R113 to R121): two routes, one value. -/
def Obligations.LoadAgreesWithExtractions : Prop :=
  ∀ (s s' : State) (bytes : List Byte) (rest : List Reply) (k : CalFn), s.phase = .unloaded → bytes.length = 15 →
    s.env.replies = bytes.map Reply.byte ++ rest →
    ∃ t t' c, exec .calLoad s = .next t ∧ t.coef = some c ∧
      exec (decodeCal k (calImage bytes)) s' = .next t' ∧ t'.env.extOut = some ((coefValues c).get k)

/-- Calibration reads are idempotent (20_memory.md R63): two loads, whenever they come, from a device whose contents are
the same and whose transport is faithful, load the same coefficients. The reply `content` is the model's form (log
17); that contents nothing has placed are the same for every device is the model's choice (log 18, log 26). -/
def Obligations.RepeatedLoadGivesTheSameCoefficients : Prop :=
  ∀ (s s' : State) (rest rest' : List Reply), s.phase = .unloaded → s'.phase = .unloaded →
    s.env.device = s'.env.device →
    s.env.replies = List.replicate 15 Reply.content ++ rest →
    s'.env.replies = List.replicate 15 Reply.content ++ rest' →
    ∃ t t' c, exec .calLoad s = .next t ∧ exec .calLoad s' = .next t' ∧ t.coef = some c ∧ t'.coef = some c

/-! ### The sample front end -/

/-- `RD_PRS` (41_sample_decode.md R144): refused in `FAILED`; otherwise, with its 3 reads answered, `P_RAW` takes the
assembled pattern (read as a number by sign extension), `P_FRESH <- 1`, `RES` OK; nothing else of the block changes. -/
def Obligations.PressureReadDecodes : Prop :=
  ∀ s : State,
    (s.phase = .failed → exec .rdPrs s = .next { s with res := .eFatal }) ∧
    (∀ (s0 s1 s2 : Byte) (rest : List Reply), s.phase = .unloaded ∨ s.phase = .ready →
      s.env.replies = [s0, s1, s2].map Reply.byte ++ rest →
      ∃ v : BitVec 24,
        exec .rdPrs s = .next { s with
          pRaw := some v, pFresh := true, res := .ok,
          env := { s.env with
            replies := rest
            history := s.env.history ++ readEvents 0x00#8 0 [some s0, some s1, some s2] } } ∧
        signedValue v = sext 24 ((s0.toNat <<< 16) ||| (s1.toNat <<< 8) ||| s2.toNat))

/-- `RD_TMP` (41_sample_decode.md R145): as `RD_PRS` with pressure and temperature exchanged, from 0x03 on. -/
def Obligations.TemperatureReadDecodes : Prop :=
  ∀ s : State,
    (s.phase = .failed → exec .rdTmp s = .next { s with res := .eFatal }) ∧
    (∀ (s0 s1 s2 : Byte) (rest : List Reply), s.phase = .unloaded ∨ s.phase = .ready →
      s.env.replies = [s0, s1, s2].map Reply.byte ++ rest →
      ∃ v : BitVec 24,
        exec .rdTmp s = .next { s with
          tRaw := some v, tFresh := true, res := .ok,
          env := { s.env with
            replies := rest
            history := s.env.history ++ readEvents 0x03#8 0 [some s0, some s1, some s2] } } ∧
        signedValue v = sext 24 ((s0.toNat <<< 16) ||| (s1.toNat <<< 8) ||| s2.toNat))

/-- A failed sample read (41_sample_decode.md R146): the reads after it are not issued, the sample register is not
written, its own flag is cleared, `RES <- E_TRANSPORT`, the phase and the other sample are untouched; and a `COMP` issued
next in `READY` is refused with `E_STALE`. -/
def Obligations.FailedSampleReadIsRetryable : Prop :=
  ∀ (s : State) (got : List Byte) (rest : List Reply), s.phase = .unloaded ∨ s.phase = .ready → got.length < 3 →
    s.env.replies = got.map Reply.byte ++ .failed :: rest →
    (∃ t, exec .rdPrs s = .next t ∧
      t = { s with
        pFresh := false, res := .eTransport,
        env := { s.env with
          replies := rest
          history := s.env.history ++ readEvents 0x00#8 0 (got.map some ++ [none]) } } ∧
      (s.phase = .ready → exec .comp t = .next { t with res := .eStale })) ∧
    (∃ t, exec .rdTmp s = .next t ∧
      t = { s with
        tFresh := false, res := .eTransport,
        env := { s.env with
          replies := rest
          history := s.env.history ++ readEvents 0x03#8 0 (got.map some ++ [none]) } } ∧
      (s.phase = .ready → exec .comp t = .next { t with res := .eStale }))

/-- `EXT.PRAW` and `EXT.TRAW` (41_sample_decode.md R141, R142): the 24-bit value; with the source's scenario for the two
boundary patterns. The block and everything else outside are unchanged. `extOut` is the model's form (log 5). -/
def Obligations.RawExtractions : Prop :=
  (∀ (s : State) (s0 s1 s2 : Byte) (i : Instr), i = .extPraw s0 s1 s2 ∨ i = .extTraw s0 s1 s2 →
    exec i s = .next { s with env := { s.env with
      extOut := some (sext 24 ((s0.toNat <<< 16) ||| (s1.toNat <<< 8) ||| s2.toNat)) } }) ∧
  sext 24 0x800000 = -8388608 ∧ sext 24 0x7FFFFF = 8388607

/-! ### COMP -/

/-- `COMP` (42_compensation_pipeline.md R176): refused in the order of the rule; in `READY` with both samples fresh it
stores `comp` of the coefficients and the raw values as computed, sets `PRESSURE_VALID`, clears both freshness flags,
sets `RES` to OK, and writes nothing else; afterwards the two sample registers show no value. -/
def Obligations.CompStoresThePressure : Prop :=
  ∀ s : State,
    (s.phase = .failed → exec .comp s = .next { s with res := .eFatal }) ∧
    (s.phase = .unloaded → exec .comp s = .next { s with res := .eNoCal }) ∧
    (s.phase = .ready → s.pFresh = false ∨ s.tFresh = false → exec .comp s = .next { s with res := .eStale }) ∧
    (∀ (c : Coefs) (traw praw : BitVec 24), s.phase = .ready → s.pFresh = true → s.tFresh = true →
      s.coef = some c → s.tRaw = some traw → s.pRaw = some praw →
      ∃ t, exec .comp s = .next t ∧
        t = { s with
          pressure := some
            ((comp s.params (coefValues c) (signedValue traw) (signedValue praw)).toBits s.params.fmt),
          pressureValid := true, pFresh := false, tFresh := false, res := .ok } ∧
        readPRaw t = none ∧ readTRaw t = none)

/-- `COMP` depends on nothing but the parameters, the coefficients and the raw sample: equal arguments give the same bit
pattern (42_compensation_pipeline.md R173). -/
def Obligations.CompIsAFunctionOfItsArguments : Prop :=
  ∀ s s' t t' : State, exec .comp s = .next t → exec .comp s' = .next t' → t.res = .ok → t'.res = .ok →
    s.params = s'.params → s.coef = s'.coef → s.tRaw = s'.tRaw → s.pRaw = s'.pRaw →
    t.pressure.isSome = true ∧ t.pressure = t'.pressure

/-- `round_F` (42_compensation_pipeline.md R156): zero gives `+0`; otherwise the result is the multiple of
`q = 2^(e-p+1)` nearest to `x`, the even multiple when `x` is half-way, `e = max(floor(log2 |x|), emin)`; and the
infinity of that sign when its magnitude reaches `2^(emax+1)`. -/
def Obligations.RoundingIsToNearestEven : Prop :=
  ∀ fmt : Fmt, roundF fmt 0 = .zero false ∧
    ∀ (x : ℚ) (l : Int), x ≠ 0 → (2 : ℚ) ^ l ≤ |x| → |x| < (2 : ℚ) ^ (l + 1) →
      ∃ (q : ℚ) (n : Int), q = (2 : ℚ) ^ (max l (emin fmt) - (prec fmt : Int) + 1) ∧
        (∀ m : Int, |x - n * q| ≤ |x - m * q|) ∧
        (∀ m : Int, m ≠ n → |x - n * q| = |x - m * q| → n % 2 = 0) ∧
        (|n * q| < (2 : ℚ) ^ (emax fmt + 1) → (roundF fmt x).number = some (n * q)) ∧
        ((2 : ℚ) ^ (emax fmt + 1) ≤ |n * q| → roundF fmt x = .inf (decide (x < 0)))

/-- Every operation rounds its exact result once (42_compensation_pipeline.md R158 to R161): on finite values of the
format, `fdiv`, `fmul`, `fadd` and `fma` are `round_F` of the exact quotient, product, sum, and product plus third
operand; where that is zero, the zero has the sign of the rule; `fadd` is commutative. -/
def Obligations.OperationsRoundOnce : Prop :=
  ∀ (fmt : Fmt) (a b c : FVal) (x y z : ℚ), FiniteValue fmt a x → FiniteValue fmt b y → FiniteValue fmt c z →
    (y ≠ 0 → fdiv fmt a b = if x = 0 then .zero (a.neg ^^ b.neg) else roundF fmt (x / y)) ∧
    fmul fmt a b = (if x * y = 0 then .zero (a.neg ^^ b.neg) else roundF fmt (x * y)) ∧
    fadd fmt a b = (if x + y = 0 then .zero (decide (a = .zero true ∧ b = .zero true)) else roundF fmt (x + y)) ∧
    fadd fmt a b = fadd fmt b a ∧
    fma fmt a b c =
      (if x * y + z = 0 then .zero (decide (x * y = 0) && (a.neg ^^ b.neg) && decide (c = .zero true))
       else roundF fmt (x * y + z))

/-- Every integer of magnitude at most `2^24` is converted exactly, in both formats, and so the operands of `i2f` are: the
coefficients and the raw values (42_compensation_pipeline.md R163). -/
def Obligations.ConversionIsExact : Prop :=
  (∀ (fmt : Fmt) (v : Int), |v| ≤ 2 ^ 24 → (i2f fmt v).number = some (v : ℚ)) ∧
  (∀ (fmt : Fmt) (c : Coefs) (k : CalFn), |(coefValues c).get k| ≤ 2 ^ 19 ∧
    (i2f fmt ((coefValues c).get k)).number = some (((coefValues c).get k : Int) : ℚ)) ∧
  (∀ (fmt : Fmt) (v : BitVec 24), |signedValue v| ≤ 2 ^ 23 ∧
    (i2f fmt (signedValue v)).number = some ((signedValue v : Int) : ℚ))

/-- Temperature scaling is exact in both formats: `ts = T_RAW / 2^19`, in `-16 ≤ ts < 16`, the smallest non-zero
magnitude `2^-19` (42_compensation_pipeline.md R164). -/
def Obligations.TemperatureScalingIsExact : Prop :=
  ∀ (fmt : Fmt) (traw : BitVec 24),
    let ts : ℚ := (signedValue traw : ℚ) / 2 ^ 19
    (tScaled fmt (signedValue traw)).number = some ts ∧ -16 ≤ ts ∧ ts < 16 ∧
      (signedValue traw ≠ 0 → 1 / 2 ^ 19 ≤ |ts|)

/-- Pressure scaling: `ps` is `round_F` of the exact quotient, so within one part in `2^p` of it, finite, below 8.063 in
magnitude and above `2^-20` unless zero; it is exactly 1.0 at `KP` and 2.0 at twice `KP` (42_compensation_pipeline.md
R158, R165). -/
def Obligations.PressureScalingRange : Prop :=
  ∀ (fmt : Fmt) (praw : BitVec 24),
    pScaled fmt (signedValue praw) = roundF fmt ((signedValue praw : ℚ) / 1040384) ∧
    (∃ ps : ℚ, (pScaled fmt (signedValue praw)).number = some ps ∧ |ps| < 8063 / 1000 ∧
      (signedValue praw ≠ 0 → 1 / 2 ^ 20 < |ps|) ∧
      |ps - (signedValue praw : ℚ) / 1040384| ≤ |(signedValue praw : ℚ) / 1040384| / 2 ^ prec fmt) ∧
    pScaled fmt 1040384 = .num 1 ∧ pScaled fmt 2080768 = .num 2

/-- If both raw values are zero, `ts` and `ps` are `+0`, every product is a zero, every sum of a coefficient and a zero
is the coefficient, and the result is `i2f(C00)` exactly, in both formats and both modes (42_compensation_pipeline.md
R179). -/
def Obligations.OnlyC00SurvivesAtZero : Prop :=
  ∀ (params : Params) (c : Coefs),
    let v := coefValues c
    let sep := traceSeparate params.fmt v 0 0
    let fus := traceFused params.fmt v 0 0
    comp params v 0 0 = i2f params.fmt v.c00 ∧ (comp params v 0 0).number = some ((v.c00 : Int) : ℚ) ∧
    tScaled params.fmt 0 = .zero false ∧ pScaled params.fmt 0 = .zero false ∧
    (∀ x ∈ [sep.a1, sep.a3, sep.a5, sep.b1, sep.d1, sep.d3, sep.d4, fus.d3], x = .zero false ∨ x = .zero true) ∧
    (sep.a2 = i2f params.fmt v.c20 ∧ sep.a4 = i2f params.fmt v.c10 ∧ sep.s1 = i2f params.fmt v.c00 ∧
      sep.s2 = i2f params.fmt v.c00 ∧ sep.d2 = i2f params.fmt v.c11 ∧ sep.s3 = i2f params.fmt v.c00) ∧
    (fus.a2 = i2f params.fmt v.c20 ∧ fus.a4 = i2f params.fmt v.c10 ∧ fus.s1 = i2f params.fmt v.c00 ∧
      fus.s2 = i2f params.fmt v.c00 ∧ fus.d2 = i2f params.fmt v.c11 ∧ fus.s3 = i2f params.fmt v.c00)

/-- If `P_RAW = 1040384` then `ps = 1.0`, and with only `C10` non-zero and `T_RAW = 0` the result is `i2f(C10)` exactly
(42_compensation_pipeline.md R180), for the function `comp` also at the source's `c10 = 1040384`. -/
def Obligations.LinearTermIsTheIdentityAtKP : Prop :=
  ∀ (params : Params) (c10 : Int), |c10| ≤ 2 ^ 24 →
    pScaled params.fmt 1040384 = .num 1 ∧
    comp params ⟨0, c10, 0, 0, 0, 0, 0⟩ 0 1040384 = i2f params.fmt c10 ∧
    (comp params ⟨0, c10, 0, 0, 0, 0, 0⟩ 0 1040384).number = some (c10 : ℚ)

/-- The coefficient-to-term mapping (42_compensation_pipeline.md R167): at `ts = 3`, `ps = 2` the seven terms have the
seven distinct weights 1, 2, 3, 6, 4, 12, 8, and for every content of the coefficient registers, in both formats and both
modes, the result is exactly that weighted sum; so no two coefficients can be exchanged unseen (70_reset_and_hazards.md
R249). -/
def Obligations.EachCoefficientHasItsTerm : Prop :=
  ∀ (params : Params) (c : Coefs),
    let v := coefValues c
    (comp params v 1572864 2080768).number =
      some ((v.c00 + 2 * v.c10 + 3 * v.c01 + 6 * v.c11 + 4 * v.c20 + 12 * v.c21 + 8 * v.c30 : Int) : ℚ)

/-- The range of the pipeline (42_compensation_pipeline.md R174): for every content of the registers, in both formats and
both modes, every intermediate and the result are finite and below `2^27` in magnitude, and the exact pressure is at most
62895129.65. -/
def Obligations.NoValueOfThePipelineOverflows : Prop :=
  ∀ (fmt : Fmt) (c : Coefs) (traw praw : BitVec 24),
    (∀ v ∈ (traceSeparate fmt (coefValues c) (signedValue traw) (signedValue praw)).all,
      ∃ y : ℚ, v.number = some y ∧ |y| < 2 ^ 27) ∧
    (∀ v ∈ (traceFused fmt (coefValues c) (signedValue traw) (signedValue praw)).all,
      ∃ y : ℚ, v.number = some y ∧ |y| < 2 ^ 27) ∧
    |exactPressure (coefValues c) (signedValue traw) (signedValue praw)| ≤ 6289512965 / 100

/-- What rounding adds to the result (42_compensation_pipeline.md R174: "less than one part in `2^20` of that"): for every
content of the registers, in both formats and both modes, `comp` is finite and its distance from the formula in exact
arithmetic (R166) is less than 62895129.65 / 2^20. -/
def Obligations.ResultIsCloseToTheFormula : Prop :=
  ∀ (params : Params) (c : Coefs) (traw praw : BitVec 24),
    ∃ y : ℚ, (comp params (coefValues c) (signedValue traw) (signedValue praw)).number = some y ∧
      2 ^ 20 * |y - exactPressure (coefValues c) (signedValue traw) (signedValue praw)| < 6289512965 / 100

/-- The result is never `-0`, whatever the registers hold, in both formats and both modes, and with all coefficients zero
it is `+0` (42_compensation_pipeline.md R175, R176). -/
def Obligations.ResultIsNeverNegativeZero : Prop :=
  ∀ (params : Params) (c : Coefs) (traw praw : BitVec 24),
    comp params (coefValues c) (signedValue traw) (signedValue praw) ≠ .zero true ∧
    (coefValues c = ⟨0, 0, 0, 0, 0, 0, 0⟩ →
      comp params (coefValues c) (signedValue traw) (signedValue praw) = .zero false)

/-- The bit patterns (42_compensation_pipeline.md R155): a representable number's pattern stands for that number, and a
pattern that is no NaN is the pattern of the value it stands for. -/
def Obligations.BitPatternsStandForTheirValues : Prop :=
  (∀ (fmt : Fmt) (x : ℚ), x ≠ 0 → Representable fmt x →
    ((FVal.num x).toBits fmt).value = .num x ∧ ((FVal.num x).toBits fmt).fmt = fmt) ∧
  (∀ bits : BitVec 32, (FloatBits.b32 bits).value ≠ .nan →
    (FloatBits.b32 bits).value.toBits .binary32 = .b32 bits) ∧
  (∀ bits : BitVec 64, (FloatBits.b64 bits).value ≠ .nan →
    (FloatBits.b64 bits).value.toBits .binary64 = .b64 bits)

/-! ### Rules over all instructions -/

/-- The acceptance matrix (43_control.md R196): where a cell says refuse, the command is refused with that code and
changes nothing else, and a reserved code is refused in every phase; where it says run, the command is not refused: it
ends with OK or `E_TRANSPORT` (reset and a transport that never answers apart), and `NOP` changes nothing. -/
def Obligations.AcceptanceMatrix : Prop :=
  (∀ (i : Instr) (s : State) (code : ResultCode), refusalCode i s = some code →
    exec i s = .next { s with res := code }) ∧
  (∀ (i : Instr) (s t : State), isCommand i = true → refusalCode i s = none → exec i s = .next t →
    noResetListed s → (i = .nop ∧ t = s) ∨ (i ≠ .nop ∧ (t.res = .ok ∨ t.res = .eTransport))) ∧
  (∀ (s : State) (code : BitVec 3), 4 < code.toNat →
    dispatch (.cmd code) s = .next { s with res := .eIllCmd })

/-- The priority of the conditions (60_exceptions.md R218): a reserved code before everything; then `PHASE = FAILED`;
then the phase checks; then the flag check; and of the reads the first that fails, whatever is listed after it. -/
def Obligations.FirstConditionIsReported : Prop :=
  (∀ (s : State) (code : BitVec 3), 4 < code.toNat → dispatch (.cmd code) s = .next { s with res := .eIllCmd }) ∧
  (∀ (s : State) (i : Instr), s.phase = .failed → i = .calLoad ∨ i = .rdPrs ∨ i = .rdTmp ∨ i = .comp →
    exec i s = .next { s with res := .eFatal }) ∧
  (∀ s : State, s.phase = .ready → exec .calLoad s = .next { s with res := .eLocked }) ∧
  (∀ s : State, s.phase = .unloaded → exec .comp s = .next { s with res := .eNoCal }) ∧
  (∀ s : State, s.phase = .ready → s.pFresh = false ∨ s.tFresh = false →
    exec .comp s = .next { s with res := .eStale }) ∧
  (∀ (who : Reader) (s : State) (got : List Byte) (rest : List Reply), refusalCode who.instr s = none →
    got.length < who.count → s.env.replies = got.map Reply.byte ++ .failed :: rest →
    ∃ t, exec who.instr s = .next t ∧ t.res = .eTransport ∧ t.env.replies = rest ∧
      t.env.history = s.env.history ++ readEvents who.base 0 (got.map some ++ [none]))

/-- Phase transitions (43_control.md R195): `PHASE` changes only as the table says, over every step. -/
def Obligations.PhaseTransitions : Prop :=
  ∀ s t : State, step s = .next t →
    (∀ rest, s.env.inputs = .reset :: rest → t.phase = .unloaded) ∧
    (nextIsNotReset s → noResetListed s →
      (s.phase = .ready → t.phase = .ready) ∧
      (s.phase = .failed → t.phase = .failed) ∧
      (s.phase = .unloaded →
        t.phase = .unloaded ∨
        ∃ rest, s.env.inputs = .present (.cmd 0b001#3) :: rest ∧
          ((t.phase = .ready ∧ t.res = .ok) ∨ (t.phase = .failed ∧ t.res = .eTransport))) ∧
      (s.phase = .unloaded → (∃ rest, s.env.inputs = .present (.cmd 0b001#3) :: rest) → t.phase ≠ .unloaded))

/-- The coefficient registers are write-once per reset (10_state.md R23): over every step that is no reset they stay as
they are, unless it is a `CAL_LOAD` in `UNLOADED` that completes OK, which writes all seven and enters `READY`. -/
def Obligations.CoefficientsAreWrittenOnce : Prop :=
  ∀ s t : State, step s = .next t → nextIsNotReset s → noResetListed s →
    t.coef = s.coef ∨
      (s.phase = .unloaded ∧ (∃ rest, s.env.inputs = .present (.cmd 0b001#3) :: rest) ∧
        t.coef.isSome = true ∧ t.phase = .ready ∧ t.res = .ok)

/-- The freshness flags (10_state.md R26): set by a successful read of the sample, both cleared by a successful `COMP`,
a sample's own cleared by its read that raises `TransportError`, and by no other instruction changed; a register whose
flag is 0 holds no value. -/
def Obligations.FreshnessFlags : Prop :=
  ∀ (i : Instr) (s t : State), exec i s = .next t → noResetListed s →
    t.pFresh =
      (if i = .rdPrs ∧ t.res = .ok then true
       else if i = .rdPrs ∧ t.res = .eTransport then false
       else if i = .comp ∧ t.res = .ok then false
       else s.pFresh) ∧
    t.tFresh =
      (if i = .rdTmp ∧ t.res = .ok then true
       else if i = .rdTmp ∧ t.res = .eTransport then false
       else if i = .comp ∧ t.res = .ok then false
       else s.tFresh) ∧
    (t.pFresh = false → readPRaw t = none) ∧ (t.tFresh = false → readTRaw t = none)

/-- `PRESSURE_VALID` is set by a successful `COMP`, which alone writes `PRESSURE`, and no command clears it; while it is
0, `PRESSURE` holds no value (10_state.md R27, R28). -/
def Obligations.PressureIsKeptUntilTheNextResult : Prop :=
  ∀ (i : Instr) (s t : State), exec i s = .next t → noResetListed s →
    ((i = .comp ∧ t.res = .ok ∧ t.pressureValid = true ∧ t.pressure.isSome = true) ∨
      (t.pressure = s.pressure ∧ t.pressureValid = s.pressureValid)) ∧
    (t.pressureValid = false → readPressure t = none)

/-- What each instruction leaves unchanged: `NOP` everything; the extraction functions the whole block; `CAL_LOAD` the
samples and the result; `RD_PRS` and `RD_TMP` everything of the block but their own sample, its flag and `RES`; `COMP`
the coefficients, the sample registers, the phase and everything outside the block; and every instruction the
parameters, every byte of the device's registers, the inputs still to come, and (but for the extraction functions)
`extOut`. -/
def Obligations.FramesOfTheInstructions : Prop :=
  ∀ (i : Instr) (s t : State), exec i s = .next t → noResetListed s →
    (t.params = s.params ∧ t.env.inputs = s.env.inputs ∧
      (∀ a : Nat, t.env.device.lookup a = s.env.device.lookup a) ∧
      (isCommand i = true → t.env.extOut = s.env.extOut)) ∧
    (i = .nop → t = s) ∧
    (isCommand i = false → sameBlock s t ∧ t.env = { s.env with extOut := t.env.extOut }) ∧
    (i = .calLoad → t.pRaw = s.pRaw ∧ t.tRaw = s.tRaw ∧ t.pFresh = s.pFresh ∧ t.tFresh = s.tFresh ∧
      t.pressure = s.pressure ∧ t.pressureValid = s.pressureValid) ∧
    (i = .rdPrs → t.phase = s.phase ∧ t.coef = s.coef ∧ t.tRaw = s.tRaw ∧ t.tFresh = s.tFresh ∧
      t.pressure = s.pressure ∧ t.pressureValid = s.pressureValid) ∧
    (i = .rdTmp → t.phase = s.phase ∧ t.coef = s.coef ∧ t.pRaw = s.pRaw ∧ t.pFresh = s.pFresh ∧
      t.pressure = s.pressure ∧ t.pressureValid = s.pressureValid) ∧
    (i = .comp → t.phase = s.phase ∧ t.coef = s.coef ∧ t.pRaw = s.pRaw ∧ t.tRaw = s.tRaw ∧ t.env = s.env)

/-- Exceptions are precise (60_exceptions.md R220): an instruction that ends with any code other than OK has written no
data register. -/
def Obligations.ExceptionsArePrecise : Prop :=
  ∀ (i : Instr) (s t : State), exec i s = .next t → noResetListed s → t.res ≠ .ok →
    t.coef = s.coef ∧ t.pRaw = s.pRaw ∧ t.tRaw = s.tRaw ∧ t.pressure = s.pressure

/-- The event sequence (20_memory.md R71): a reading command that runs issues its reads at ascending addresses from its
base, all of them when it completes OK, stopping after the first failed one when it raises `TransportError`; `COMP`, `NOP`
and a refused command issue none. Each event uses up one answer. -/
def Obligations.EventSequence : Prop :=
  (∀ (who : Reader) (s t : State), exec who.instr s = .next t → noResetListed s →
    refusalCode who.instr s = none →
    (t.res = .ok ∧ ∃ got : List Byte, got.length = who.count ∧
      t.env.history = s.env.history ++ readEvents who.base 0 (got.map some) ∧
      t.env.replies = s.env.replies.drop who.count) ∨
    (t.res = .eTransport ∧ ∃ got : List Byte, got.length < who.count ∧
      t.env.history = s.env.history ++ readEvents who.base 0 (got.map some ++ [none]) ∧
      t.env.replies = s.env.replies.drop (got.length + 1))) ∧
  (∀ (i : Instr) (s t : State), exec i s = .next t → i = .comp ∨ i = .nop ∨ refusalCode i s ≠ none →
    t.env.history = s.env.history ∧ t.env.replies = s.env.replies)

/-- The addresses the block forms (20_memory.md R57): every new event is at `base + idx` of the command's own base, `idx`
below its number of bytes, without wrapping, and the greatest address formed is 0x21. -/
def Obligations.AddressesFormed : Prop :=
  ∀ (i : Instr) (s t : State), exec i s = .next t →
    ∃ new : List ReadEvent, t.env.history = s.env.history ++ new ∧
      ∀ ev ∈ new, ∃ (who : Reader) (idx : Nat), i = who.instr ∧ idx < who.count ∧
        ev.addr.toNat = who.base.toNat + idx ∧ ev.addr.toNat ≤ 0x21

/-- No instruction writes the device register space (20_memory.md R51), reset in the middle of it included; the order and
form of the list stay as they are. -/
def Obligations.NoInstructionWritesTheDevice : Prop :=
  ∀ (i : Instr) (s t : State), exec i s = .next t → t.env.device = s.env.device

/-- The parameters are "not changeable by any command" (10_state.md R34), nor by anything else a step can do. -/
def Obligations.ParametersNeverChange : Prop :=
  ∀ s t : State, step s = .next t → t.params = s.params

/-- `RES` (10_state.md R33): every command other than `NOP` overwrites it, so that what stood there before is not to be
seen in any outcome; `NOP` leaves it unchanged. -/
def Obligations.ResultCodeIsOverwritten : Prop :=
  (∀ (i : Instr) (s : State) (r : ResultCode), isCommand i = true → i ≠ .nop →
    exec i { s with res := r } = exec i s) ∧
  (∀ s t : State, exec .nop s = .next t → t.res = s.res)

/-- The result codes (60_exceptions.md R210): the seven patterns of the table, all different, `111` never among them. -/
def Obligations.ResultCodesAreDistinct : Prop :=
  (resBits .ok = 0b000#3 ∧ resBits .eTransport = 0b001#3 ∧ resBits .eNoCal = 0b010#3 ∧ resBits .eStale = 0b011#3 ∧
    resBits .eLocked = 0b100#3 ∧ resBits .eFatal = 0b101#3 ∧ resBits .eIllCmd = 0b110#3) ∧
  ∀ r r' : ResultCode, (resBits r = resBits r' → r = r') ∧ resBits r ≠ 0b111#3

/-- `PRESSURE` "is never an input to a later computation" (10_state.md R27): a state with another result in it has the
same outcomes, but for the result itself where it is kept. -/
def Obligations.PressureIsNeverAnInput : Prop :=
  ∀ (i : Instr) (s : State) (p : Option FloatBits) (b : Bool),
    match exec i s with
    | .next t => ∃ p' b', exec i { s with pressure := p, pressureValid := b } =
        .next { t with pressure := p', pressureValid := b' } ∧
        ((p' = t.pressure ∧ b' = t.pressureValid) ∨ (p' = p ∧ b' = b))
    | .fault r => exec i { s with pressure := p, pressureValid := b } = .fault r
    | .refused r => exec i { s with pressure := p, pressureValid := b } = .refused r

/-- Guards of the status outputs (10_state.md R24, R26, R28; 00_scope.md R12): outside its guard a data register shows no
value; in a good state it shows one under its guard. -/
def Obligations.GuardedOutputs : Prop :=
  ∀ s : State,
    (s.phase ≠ .ready → ∀ k : CalFn, observe (.coef k) s = .error .noValue) ∧
    (s.pFresh = false → observe .pRaw s = .error .noValue) ∧
    (s.tFresh = false → observe .tRaw s = .error .noValue) ∧
    (s.pressureValid = false → observe .pressure s = .error .noValue) ∧
    (Good s = true →
      (s.phase = .ready → ∀ k : CalFn, ∃ c, s.coef = some c ∧
        observe (.coef k) s = .ok (.int ((coefValues c).get k))) ∧
      (s.pFresh = true → ∃ v, s.pRaw = some v ∧ observe .pRaw s = .ok (.int (signedValue v))) ∧
      (s.tFresh = true → ∃ v, s.tRaw = some v ∧ observe .tRaw s = .ok (.int (signedValue v))) ∧
      (s.pressureValid = true → ∃ v, s.pressure = some v ∧ observe .pressure s = .ok (.float v)))

/-! ### The invariant -/

/-- The reset state is good: every guard tells the truth, the device's contents are in canonical form. -/
def Obligations.ResetIsGood : Prop :=
  Good State.reset = true ∧ ∀ (params : Params) (e : Env), Memory.wf e.device = true →
    Good (State.resetWith params e) = true

/-- Every step keeps the guards true (10_state.md R24, R26, R28; 40_calibration_extractor.md R122): the coefficients have
values exactly in `READY`, a fresh flag stands over a value, `PRESSURE_VALID` over a result of the format, and the
device's contents stay in canonical form. -/
def Obligations.StepKeepsGood : Prop :=
  ∀ s t : State, Good s = true → step s = .next t → Good t = true

/-- In a good state no rule reads a register that holds no value (00_scope.md R12); the one way a step can stop is a
transport that never answers, and then one is listed. -/
def Obligations.GoodStatesStopOnlyAtTheTransport : Prop :=
  ∀ s : State, Good s = true →
    (∀ r, step s = .fault r → r = .transportNeverAnswers ∧ ¬ everyReadAnswered s) ∧
    (∀ r, step s ≠ .refused r)

/-- Where every read is answered, every instruction runs to its end, whatever the transport answers (70_reset_and_hazards.md
R254, 43_control.md R192): from a good state always; and `COMP` apart, from any state. -/
def Obligations.EveryInstructionRunsToItsEnd : Prop :=
  (∀ (i : Instr) (s : State), everyReadAnswered s → Good s = true → ∃ t, exec i s = .next t) ∧
  (∀ (i : Instr) (s : State), everyReadAnswered s → i ≠ .comp → ∃ t, exec i s = .next t) ∧
  (∀ s : State, everyReadAnswered s → Good s = true → ∃ t, step s = .next t)
end

