-- ==== Sys2Proof/Laws/State.lean ====
section
/-! SUPPORT. One lemma per field per update of the state, so that no proof unfolds a record update. -/

namespace Sys2Proof.Machine

@[simp] theorem setRes_params (c : ResultCode) (s : State) : (setRes c s).params = s.params := rfl
@[simp] theorem setRes_phase (c : ResultCode) (s : State) : (setRes c s).phase = s.phase := rfl
@[simp] theorem setRes_coef (c : ResultCode) (s : State) : (setRes c s).coef = s.coef := rfl
@[simp] theorem setRes_pRaw (c : ResultCode) (s : State) : (setRes c s).pRaw = s.pRaw := rfl
@[simp] theorem setRes_tRaw (c : ResultCode) (s : State) : (setRes c s).tRaw = s.tRaw := rfl
@[simp] theorem setRes_pFresh (c : ResultCode) (s : State) : (setRes c s).pFresh = s.pFresh := rfl
@[simp] theorem setRes_tFresh (c : ResultCode) (s : State) : (setRes c s).tFresh = s.tFresh := rfl
@[simp] theorem setRes_pressure (c : ResultCode) (s : State) : (setRes c s).pressure = s.pressure := rfl
@[simp] theorem setRes_pressureValid (c : ResultCode) (s : State) : (setRes c s).pressureValid = s.pressureValid := rfl
@[simp] theorem setRes_res (c : ResultCode) (s : State) : (setRes c s).res = c := rfl
@[simp] theorem setRes_env (c : ResultCode) (s : State) : (setRes c s).env = s.env := rfl

@[simp] theorem complete_params (s : State) : (complete s).params = s.params := rfl
@[simp] theorem complete_phase (s : State) : (complete s).phase = s.phase := rfl
@[simp] theorem complete_coef (s : State) : (complete s).coef = s.coef := rfl
@[simp] theorem complete_pRaw (s : State) : (complete s).pRaw = s.pRaw := rfl
@[simp] theorem complete_tRaw (s : State) : (complete s).tRaw = s.tRaw := rfl
@[simp] theorem complete_pFresh (s : State) : (complete s).pFresh = s.pFresh := rfl
@[simp] theorem complete_tFresh (s : State) : (complete s).tFresh = s.tFresh := rfl
@[simp] theorem complete_pressure (s : State) : (complete s).pressure = s.pressure := rfl
@[simp] theorem complete_pressureValid (s : State) : (complete s).pressureValid = s.pressureValid := rfl
@[simp] theorem complete_res (s : State) : (complete s).res = .ok := rfl
@[simp] theorem complete_env (s : State) : (complete s).env = s.env := rfl

@[simp] theorem refuse_params (c : ResultCode) (s : State) : (refuse c s).params = s.params := rfl
@[simp] theorem refuse_phase (c : ResultCode) (s : State) : (refuse c s).phase = s.phase := rfl
@[simp] theorem refuse_coef (c : ResultCode) (s : State) : (refuse c s).coef = s.coef := rfl
@[simp] theorem refuse_pRaw (c : ResultCode) (s : State) : (refuse c s).pRaw = s.pRaw := rfl
@[simp] theorem refuse_tRaw (c : ResultCode) (s : State) : (refuse c s).tRaw = s.tRaw := rfl
@[simp] theorem refuse_pFresh (c : ResultCode) (s : State) : (refuse c s).pFresh = s.pFresh := rfl
@[simp] theorem refuse_tFresh (c : ResultCode) (s : State) : (refuse c s).tFresh = s.tFresh := rfl
@[simp] theorem refuse_pressure (c : ResultCode) (s : State) : (refuse c s).pressure = s.pressure := rfl
@[simp] theorem refuse_pressureValid (c : ResultCode) (s : State) : (refuse c s).pressureValid = s.pressureValid := rfl
@[simp] theorem refuse_res (c : ResultCode) (s : State) : (refuse c s).res = c := rfl
@[simp] theorem refuse_env (c : ResultCode) (s : State) : (refuse c s).env = s.env := rfl

@[simp] theorem commitCoefs_params (c : Coefs) (s : State) : (commitCoefs c s).params = s.params := rfl
@[simp] theorem commitCoefs_phase (c : Coefs) (s : State) : (commitCoefs c s).phase = .ready := rfl
@[simp] theorem commitCoefs_coef (c : Coefs) (s : State) : (commitCoefs c s).coef = some c := rfl
@[simp] theorem commitCoefs_pRaw (c : Coefs) (s : State) : (commitCoefs c s).pRaw = s.pRaw := rfl
@[simp] theorem commitCoefs_tRaw (c : Coefs) (s : State) : (commitCoefs c s).tRaw = s.tRaw := rfl
@[simp] theorem commitCoefs_pFresh (c : Coefs) (s : State) : (commitCoefs c s).pFresh = s.pFresh := rfl
@[simp] theorem commitCoefs_tFresh (c : Coefs) (s : State) : (commitCoefs c s).tFresh = s.tFresh := rfl
@[simp] theorem commitCoefs_pressure (c : Coefs) (s : State) : (commitCoefs c s).pressure = s.pressure := rfl
@[simp] theorem commitCoefs_pressureValid (c : Coefs) (s : State) : (commitCoefs c s).pressureValid = s.pressureValid := rfl
@[simp] theorem commitCoefs_res (c : Coefs) (s : State) : (commitCoefs c s).res = s.res := rfl
@[simp] theorem commitCoefs_env (c : Coefs) (s : State) : (commitCoefs c s).env = s.env := rfl

@[simp] theorem commitPRaw_params (v : BitVec 24) (s : State) : (commitPRaw v s).params = s.params := rfl
@[simp] theorem commitPRaw_phase (v : BitVec 24) (s : State) : (commitPRaw v s).phase = s.phase := rfl
@[simp] theorem commitPRaw_coef (v : BitVec 24) (s : State) : (commitPRaw v s).coef = s.coef := rfl
@[simp] theorem commitPRaw_pRaw (v : BitVec 24) (s : State) : (commitPRaw v s).pRaw = some v := rfl
@[simp] theorem commitPRaw_tRaw (v : BitVec 24) (s : State) : (commitPRaw v s).tRaw = s.tRaw := rfl
@[simp] theorem commitPRaw_pFresh (v : BitVec 24) (s : State) : (commitPRaw v s).pFresh = true := rfl
@[simp] theorem commitPRaw_tFresh (v : BitVec 24) (s : State) : (commitPRaw v s).tFresh = s.tFresh := rfl
@[simp] theorem commitPRaw_pressure (v : BitVec 24) (s : State) : (commitPRaw v s).pressure = s.pressure := rfl
@[simp] theorem commitPRaw_pressureValid (v : BitVec 24) (s : State) : (commitPRaw v s).pressureValid = s.pressureValid := rfl
@[simp] theorem commitPRaw_res (v : BitVec 24) (s : State) : (commitPRaw v s).res = s.res := rfl
@[simp] theorem commitPRaw_env (v : BitVec 24) (s : State) : (commitPRaw v s).env = s.env := rfl

@[simp] theorem commitTRaw_params (v : BitVec 24) (s : State) : (commitTRaw v s).params = s.params := rfl
@[simp] theorem commitTRaw_phase (v : BitVec 24) (s : State) : (commitTRaw v s).phase = s.phase := rfl
@[simp] theorem commitTRaw_coef (v : BitVec 24) (s : State) : (commitTRaw v s).coef = s.coef := rfl
@[simp] theorem commitTRaw_pRaw (v : BitVec 24) (s : State) : (commitTRaw v s).pRaw = s.pRaw := rfl
@[simp] theorem commitTRaw_tRaw (v : BitVec 24) (s : State) : (commitTRaw v s).tRaw = some v := rfl
@[simp] theorem commitTRaw_pFresh (v : BitVec 24) (s : State) : (commitTRaw v s).pFresh = s.pFresh := rfl
@[simp] theorem commitTRaw_tFresh (v : BitVec 24) (s : State) : (commitTRaw v s).tFresh = true := rfl
@[simp] theorem commitTRaw_pressure (v : BitVec 24) (s : State) : (commitTRaw v s).pressure = s.pressure := rfl
@[simp] theorem commitTRaw_pressureValid (v : BitVec 24) (s : State) : (commitTRaw v s).pressureValid = s.pressureValid := rfl
@[simp] theorem commitTRaw_res (v : BitVec 24) (s : State) : (commitTRaw v s).res = s.res := rfl
@[simp] theorem commitTRaw_env (v : BitVec 24) (s : State) : (commitTRaw v s).env = s.env := rfl

@[simp] theorem commitPressure_params (v : FloatBits) (s : State) : (commitPressure v s).params = s.params := rfl
@[simp] theorem commitPressure_phase (v : FloatBits) (s : State) : (commitPressure v s).phase = s.phase := rfl
@[simp] theorem commitPressure_coef (v : FloatBits) (s : State) : (commitPressure v s).coef = s.coef := rfl
@[simp] theorem commitPressure_pRaw (v : FloatBits) (s : State) : (commitPressure v s).pRaw = s.pRaw := rfl
@[simp] theorem commitPressure_tRaw (v : FloatBits) (s : State) : (commitPressure v s).tRaw = s.tRaw := rfl
@[simp] theorem commitPressure_pFresh (v : FloatBits) (s : State) : (commitPressure v s).pFresh = false := rfl
@[simp] theorem commitPressure_tFresh (v : FloatBits) (s : State) : (commitPressure v s).tFresh = false := rfl
@[simp] theorem commitPressure_pressure (v : FloatBits) (s : State) : (commitPressure v s).pressure = some v := rfl
@[simp] theorem commitPressure_pressureValid (v : FloatBits) (s : State) : (commitPressure v s).pressureValid = true := rfl
@[simp] theorem commitPressure_res (v : FloatBits) (s : State) : (commitPressure v s).res = s.res := rfl
@[simp] theorem commitPressure_env (v : FloatBits) (s : State) : (commitPressure v s).env = s.env := rfl

@[simp] theorem raiseTransport_calLoad_params (s : State) : (raiseTransport .calLoad s).params = s.params := rfl
@[simp] theorem raiseTransport_calLoad_phase (s : State) : (raiseTransport .calLoad s).phase = .failed := rfl
@[simp] theorem raiseTransport_calLoad_coef (s : State) : (raiseTransport .calLoad s).coef = s.coef := rfl
@[simp] theorem raiseTransport_calLoad_pRaw (s : State) : (raiseTransport .calLoad s).pRaw = s.pRaw := rfl
@[simp] theorem raiseTransport_calLoad_tRaw (s : State) : (raiseTransport .calLoad s).tRaw = s.tRaw := rfl
@[simp] theorem raiseTransport_calLoad_pFresh (s : State) : (raiseTransport .calLoad s).pFresh = s.pFresh := rfl
@[simp] theorem raiseTransport_calLoad_tFresh (s : State) : (raiseTransport .calLoad s).tFresh = s.tFresh := rfl
@[simp] theorem raiseTransport_calLoad_pressure (s : State) : (raiseTransport .calLoad s).pressure = s.pressure := rfl
@[simp] theorem raiseTransport_calLoad_pressureValid (s : State) : (raiseTransport .calLoad s).pressureValid = s.pressureValid := rfl
@[simp] theorem raiseTransport_calLoad_res (s : State) : (raiseTransport .calLoad s).res = .eTransport := rfl
@[simp] theorem raiseTransport_calLoad_env (s : State) : (raiseTransport .calLoad s).env = s.env := rfl

@[simp] theorem raiseTransport_rdPrs_params (s : State) : (raiseTransport .rdPrs s).params = s.params := rfl
@[simp] theorem raiseTransport_rdPrs_phase (s : State) : (raiseTransport .rdPrs s).phase = s.phase := rfl
@[simp] theorem raiseTransport_rdPrs_coef (s : State) : (raiseTransport .rdPrs s).coef = s.coef := rfl
@[simp] theorem raiseTransport_rdPrs_pRaw (s : State) : (raiseTransport .rdPrs s).pRaw = s.pRaw := rfl
@[simp] theorem raiseTransport_rdPrs_tRaw (s : State) : (raiseTransport .rdPrs s).tRaw = s.tRaw := rfl
@[simp] theorem raiseTransport_rdPrs_pFresh (s : State) : (raiseTransport .rdPrs s).pFresh = false := rfl
@[simp] theorem raiseTransport_rdPrs_tFresh (s : State) : (raiseTransport .rdPrs s).tFresh = s.tFresh := rfl
@[simp] theorem raiseTransport_rdPrs_pressure (s : State) : (raiseTransport .rdPrs s).pressure = s.pressure := rfl
@[simp] theorem raiseTransport_rdPrs_pressureValid (s : State) : (raiseTransport .rdPrs s).pressureValid = s.pressureValid := rfl
@[simp] theorem raiseTransport_rdPrs_res (s : State) : (raiseTransport .rdPrs s).res = .eTransport := rfl
@[simp] theorem raiseTransport_rdPrs_env (s : State) : (raiseTransport .rdPrs s).env = s.env := rfl

@[simp] theorem raiseTransport_rdTmp_params (s : State) : (raiseTransport .rdTmp s).params = s.params := rfl
@[simp] theorem raiseTransport_rdTmp_phase (s : State) : (raiseTransport .rdTmp s).phase = s.phase := rfl
@[simp] theorem raiseTransport_rdTmp_coef (s : State) : (raiseTransport .rdTmp s).coef = s.coef := rfl
@[simp] theorem raiseTransport_rdTmp_pRaw (s : State) : (raiseTransport .rdTmp s).pRaw = s.pRaw := rfl
@[simp] theorem raiseTransport_rdTmp_tRaw (s : State) : (raiseTransport .rdTmp s).tRaw = s.tRaw := rfl
@[simp] theorem raiseTransport_rdTmp_pFresh (s : State) : (raiseTransport .rdTmp s).pFresh = s.pFresh := rfl
@[simp] theorem raiseTransport_rdTmp_tFresh (s : State) : (raiseTransport .rdTmp s).tFresh = false := rfl
@[simp] theorem raiseTransport_rdTmp_pressure (s : State) : (raiseTransport .rdTmp s).pressure = s.pressure := rfl
@[simp] theorem raiseTransport_rdTmp_pressureValid (s : State) : (raiseTransport .rdTmp s).pressureValid = s.pressureValid := rfl
@[simp] theorem raiseTransport_rdTmp_res (s : State) : (raiseTransport .rdTmp s).res = .eTransport := rfl
@[simp] theorem raiseTransport_rdTmp_env (s : State) : (raiseTransport .rdTmp s).env = s.env := rfl

@[simp] theorem resetWith_params (p : Params) (e : Env) : (State.resetWith p e).params = p := rfl
@[simp] theorem resetWith_phase (p : Params) (e : Env) : (State.resetWith p e).phase = .unloaded := rfl
@[simp] theorem resetWith_coef (p : Params) (e : Env) : (State.resetWith p e).coef = none := rfl
@[simp] theorem resetWith_pRaw (p : Params) (e : Env) : (State.resetWith p e).pRaw = none := rfl
@[simp] theorem resetWith_tRaw (p : Params) (e : Env) : (State.resetWith p e).tRaw = none := rfl
@[simp] theorem resetWith_pFresh (p : Params) (e : Env) : (State.resetWith p e).pFresh = false := rfl
@[simp] theorem resetWith_tFresh (p : Params) (e : Env) : (State.resetWith p e).tFresh = false := rfl
@[simp] theorem resetWith_pressure (p : Params) (e : Env) : (State.resetWith p e).pressure = none := rfl
@[simp] theorem resetWith_pressureValid (p : Params) (e : Env) : (State.resetWith p e).pressureValid = false := rfl
@[simp] theorem resetWith_res (p : Params) (e : Env) : (State.resetWith p e).res = .ok := rfl
@[simp] theorem resetWith_env (p : Params) (e : Env) : (State.resetWith p e).env = e := rfl

@[simp] theorem resetBlock_params (s : State) : (resetBlock s).params = s.params := rfl
@[simp] theorem resetBlock_phase (s : State) : (resetBlock s).phase = .unloaded := rfl
@[simp] theorem resetBlock_coef (s : State) : (resetBlock s).coef = none := rfl
@[simp] theorem resetBlock_pRaw (s : State) : (resetBlock s).pRaw = none := rfl
@[simp] theorem resetBlock_tRaw (s : State) : (resetBlock s).tRaw = none := rfl
@[simp] theorem resetBlock_pFresh (s : State) : (resetBlock s).pFresh = false := rfl
@[simp] theorem resetBlock_tFresh (s : State) : (resetBlock s).tFresh = false := rfl
@[simp] theorem resetBlock_pressure (s : State) : (resetBlock s).pressure = none := rfl
@[simp] theorem resetBlock_pressureValid (s : State) : (resetBlock s).pressureValid = false := rfl
@[simp] theorem resetBlock_res (s : State) : (resetBlock s).res = .ok := rfl
@[simp] theorem resetBlock_env (s : State) : (resetBlock s).env = s.env := rfl

@[simp] theorem giveValue_params (v : Int) (s : State) : (giveValue v s).params = s.params := rfl
@[simp] theorem giveValue_phase (v : Int) (s : State) : (giveValue v s).phase = s.phase := rfl
@[simp] theorem giveValue_coef (v : Int) (s : State) : (giveValue v s).coef = s.coef := rfl
@[simp] theorem giveValue_pRaw (v : Int) (s : State) : (giveValue v s).pRaw = s.pRaw := rfl
@[simp] theorem giveValue_tRaw (v : Int) (s : State) : (giveValue v s).tRaw = s.tRaw := rfl
@[simp] theorem giveValue_pFresh (v : Int) (s : State) : (giveValue v s).pFresh = s.pFresh := rfl
@[simp] theorem giveValue_tFresh (v : Int) (s : State) : (giveValue v s).tFresh = s.tFresh := rfl
@[simp] theorem giveValue_pressure (v : Int) (s : State) : (giveValue v s).pressure = s.pressure := rfl
@[simp] theorem giveValue_pressureValid (v : Int) (s : State) : (giveValue v s).pressureValid = s.pressureValid := rfl
@[simp] theorem giveValue_res (v : Int) (s : State) : (giveValue v s).res = s.res := rfl
@[simp] theorem giveValue_env (v : Int) (s : State) : (giveValue v s).env = { s.env with extOut := some v } := rfl

@[simp] theorem mapEnv_params (f : Env → Env) (s : State) : (mapEnv f s).params = s.params := rfl
@[simp] theorem mapEnv_phase (f : Env → Env) (s : State) : (mapEnv f s).phase = s.phase := rfl
@[simp] theorem mapEnv_coef (f : Env → Env) (s : State) : (mapEnv f s).coef = s.coef := rfl
@[simp] theorem mapEnv_pRaw (f : Env → Env) (s : State) : (mapEnv f s).pRaw = s.pRaw := rfl
@[simp] theorem mapEnv_tRaw (f : Env → Env) (s : State) : (mapEnv f s).tRaw = s.tRaw := rfl
@[simp] theorem mapEnv_pFresh (f : Env → Env) (s : State) : (mapEnv f s).pFresh = s.pFresh := rfl
@[simp] theorem mapEnv_tFresh (f : Env → Env) (s : State) : (mapEnv f s).tFresh = s.tFresh := rfl
@[simp] theorem mapEnv_pressure (f : Env → Env) (s : State) : (mapEnv f s).pressure = s.pressure := rfl
@[simp] theorem mapEnv_pressureValid (f : Env → Env) (s : State) : (mapEnv f s).pressureValid = s.pressureValid := rfl
@[simp] theorem mapEnv_res (f : Env → Env) (s : State) : (mapEnv f s).res = s.res := rfl
@[simp] theorem mapEnv_env (f : Env → Env) (s : State) : (mapEnv f s).env = f s.env := rfl

@[simp] theorem takeInput_params (r : List Input) (s : State) : (takeInput r s).params = s.params := rfl
@[simp] theorem takeInput_phase (r : List Input) (s : State) : (takeInput r s).phase = s.phase := rfl
@[simp] theorem takeInput_coef (r : List Input) (s : State) : (takeInput r s).coef = s.coef := rfl
@[simp] theorem takeInput_pRaw (r : List Input) (s : State) : (takeInput r s).pRaw = s.pRaw := rfl
@[simp] theorem takeInput_tRaw (r : List Input) (s : State) : (takeInput r s).tRaw = s.tRaw := rfl
@[simp] theorem takeInput_pFresh (r : List Input) (s : State) : (takeInput r s).pFresh = s.pFresh := rfl
@[simp] theorem takeInput_tFresh (r : List Input) (s : State) : (takeInput r s).tFresh = s.tFresh := rfl
@[simp] theorem takeInput_pressure (r : List Input) (s : State) : (takeInput r s).pressure = s.pressure := rfl
@[simp] theorem takeInput_pressureValid (r : List Input) (s : State) : (takeInput r s).pressureValid = s.pressureValid := rfl
@[simp] theorem takeInput_res (r : List Input) (s : State) : (takeInput r s).res = s.res := rfl
@[simp] theorem takeInput_env (r : List Input) (s : State) : (takeInput r s).env = { s.env with inputs := r } := rfl

@[simp] theorem recordRead_inputs (a : RegAddr) (x : Option Byte) (e : Env) : (recordRead a x e).inputs = e.inputs := rfl
@[simp] theorem recordRead_replies (a : RegAddr) (x : Option Byte) (e : Env) : (recordRead a x e).replies = e.replies.tail := rfl
@[simp] theorem recordRead_device (a : RegAddr) (x : Option Byte) (e : Env) : (recordRead a x e).device = e.device := rfl
@[simp] theorem recordRead_history (a : RegAddr) (x : Option Byte) (e : Env) : (recordRead a x e).history = e.history ++ [⟨a, x⟩] := rfl
@[simp] theorem recordRead_extOut (a : RegAddr) (x : Option Byte) (e : Env) : (recordRead a x e).extOut = e.extOut := rfl

@[simp] theorem reset_params : State.reset.params = Config.defaultParams := rfl
@[simp] theorem reset_env : State.reset.env = Env.empty := rfl

end Sys2Proof.Machine
end

