-- ==== Sys2Proof/Laws/Memory.lean ====
section
/-! SUPPORT. The laws of the device register space: read after write, and that every operation keeps the canonical
form. -/

namespace Sys2Proof.Machine

@[simp] theorem lookup_nil (a : Nat) : Memory.lookup [] a = none := rfl

theorem lookup_cons (k : Nat) (b : Byte) (m : Memory) (a : Nat) :
    Memory.lookup ((k, b) :: m) a = if k = a then some b else Memory.lookup m a := rfl

theorem lookup_store_same (m : Memory) (a : Nat) (b : Byte) : (Memory.store m a b).lookup a = some b := by
  induction m with
  | nil => simp [Memory.store, lookup_cons]
  | cons cell rest ih =>
    obtain ⟨k, c⟩ := cell
    unfold Memory.store
    split_ifs with h1 h2
    · simp [lookup_cons]
    · simp [lookup_cons]
    · rw [lookup_cons, if_neg (fun h => h2 h.symm), ih]

theorem lookup_store_other (m : Memory) (a a' : Nat) (b : Byte) (h : a' ≠ a) :
    (Memory.store m a b).lookup a' = Memory.lookup m a' := by
  induction m with
  | nil => simp [Memory.store, lookup_cons, Ne.symm h]
  | cons cell rest ih =>
    obtain ⟨k, c⟩ := cell
    unfold Memory.store
    split_ifs with h1 h2
    · rw [lookup_cons a, if_neg (Ne.symm h)]
    · subst h2
      rw [lookup_cons, lookup_cons, if_neg (Ne.symm h), if_neg (Ne.symm h)]
    · rw [lookup_cons, lookup_cons, ih]

theorem lookup_forget_same (m : Memory) (a : Nat) : (Memory.forget m a).lookup a = none := by
  induction m with
  | nil => rfl
  | cons cell rest ih =>
    obtain ⟨k, c⟩ := cell
    by_cases hk : k = a
    · simpa [Memory.forget, hk] using ih
    · simpa [Memory.forget, hk, lookup_cons] using ih

theorem lookup_forget_other (m : Memory) (a a' : Nat) (h : a' ≠ a) :
    (Memory.forget m a).lookup a' = Memory.lookup m a' := by
  induction m with
  | nil => rfl
  | cons cell rest ih =>
    obtain ⟨k, c⟩ := cell
    by_cases hk : k = a
    · subst hk
      simpa [Memory.forget, lookup_cons, Ne.symm h] using ih
    · by_cases hk' : k = a'
      · subst hk'
        simp [Memory.forget, hk, lookup_cons]
      · simpa [Memory.forget, hk, lookup_cons, hk'] using ih

theorem wf_cons (k : Nat) (b : Byte) (m : Memory) :
    Memory.wf ((k, b) :: m) = true ↔ k < 256 ∧ (∀ cell ∈ m, k < cell.1) ∧ Memory.wf m = true := by
  simp [Memory.wf, and_assoc]

theorem mem_store (m : Memory) (a : Nat) (b : Byte) (cell : Host.Cell) (h : cell ∈ Memory.store m a b) :
    cell = (a, b) ∨ cell ∈ m := by
  induction m with
  | nil => simpa [Memory.store] using h
  | cons head rest ih =>
    obtain ⟨k, c⟩ := head
    unfold Memory.store at h
    split_ifs at h
    · simpa using h
    · simp only [List.mem_cons] at h ⊢
      tauto
    · simp only [List.mem_cons] at h ⊢
      rcases h with h | h
      · exact .inr (.inl h)
      · exact (ih h).imp_right .inr

theorem wf_store (m : Memory) (a : Nat) (b : Byte) (ha : a < 256) (h : Memory.wf m = true) :
    Memory.wf (Memory.store m a b) = true := by
  induction m with
  | nil => simp [Memory.store, Memory.wf, ha]
  | cons head rest ih =>
    obtain ⟨k, c⟩ := head
    obtain ⟨hk, hlt, hrest⟩ := (wf_cons _ _ _).1 h
    unfold Memory.store
    split_ifs with h1 h2
    · refine (wf_cons _ _ _).2 ⟨ha, fun cell hc => ?_, h⟩
      rcases List.mem_cons.1 hc with rfl | hc
      · exact h1
      · exact h1.trans (hlt _ hc)
    · subst h2
      exact (wf_cons _ _ _).2 ⟨ha, hlt, hrest⟩
    · refine (wf_cons _ _ _).2 ⟨hk, fun cell hc => ?_, ih hrest⟩
      rcases mem_store _ _ _ _ hc with rfl | hc
      · show k < a
        omega
      · exact hlt _ hc

theorem wf_forget (m : Memory) (a : Nat) (h : Memory.wf m = true) : Memory.wf (Memory.forget m a) = true := by
  induction m with
  | nil => rfl
  | cons head rest ih =>
    obtain ⟨k, c⟩ := head
    obtain ⟨hk, hlt, hrest⟩ := (wf_cons _ _ _).1 h
    by_cases hka : k = a
    · simpa [Memory.forget, hka] using ih hrest
    · have := (wf_cons k c (Memory.forget rest a)).2
        ⟨hk, fun cell hc => hlt _ (List.mem_of_mem_filter hc), ih hrest⟩
      simpa [Memory.forget, hka] using this

theorem wf_reset : Memory.wf State.reset.env.device = true := rfl

end Sys2Proof.Machine
end

