-- ==== Sys2Proof/Laws/Numerics.lean ====
section
/-! SUPPORT. The numerics: powers of two, `floor(log2 |x|)`, the nearest integer, and what the rounding does to a
representable number and to a bounded one. -/

namespace Sys2Proof.Machine

theorem pow2_eq (k : Int) : pow2 k = (2 : ℚ) ^ k := by
  cases k with
  | ofNat n => simp [pow2]
  | negSucc n =>
    rw [pow2, zpow_negSucc, Rat.mkRat_eq_div]
    push_cast
    rw [one_div]

theorem pow2_pos (k : Int) : 0 < pow2 k := by
  rw [pow2_eq]; positivity

theorem mag_eq (x : ℚ) : mag x = |x| := by
  unfold mag
  split_ifs with h
  · rw [abs_of_neg h]
  · rw [abs_of_nonneg (not_lt.1 h)]

/-- `2^e ≤ |x| < 2^(e+1)` for `e = floor(log2 |x|)` (42_compensation_pipeline.md R156). -/
theorem ilog2_spec {x : ℚ} (hx : x ≠ 0) : (2 : ℚ) ^ ilog2 x ≤ |x| ∧ |x| < (2 : ℚ) ^ (ilog2 x + 1) := by
  have hn : x.num.natAbs ≠ 0 := by simpa using hx
  have hd : x.den ≠ 0 := x.den_nz
  have hn1 := Nat.log2_self_le hn
  have hn2 := @Nat.lt_log2_self x.num.natAbs
  have hd1 := Nat.log2_self_le hd
  have hd2 := @Nat.lt_log2_self x.den
  set a := x.num.natAbs.log2
  set b := x.den.log2
  have hq : |x| = (x.num.natAbs : ℚ) / x.den := by
    conv_lhs => rw [← Rat.num_div_den x]
    rw [abs_div, Nat.abs_cast, Nat.cast_natAbs, Int.cast_abs]
  have hN1 : (2 : ℚ) ^ a ≤ x.num.natAbs := by exact_mod_cast hn1
  have hN2 : (x.num.natAbs : ℚ) < 2 ^ (a + 1) := by exact_mod_cast hn2
  have hD1 : (2 : ℚ) ^ b ≤ x.den := by exact_mod_cast hd1
  have hD2 : (x.den : ℚ) < 2 ^ (b + 1) := by exact_mod_cast hd2
  have hDpos : (0 : ℚ) < x.den := by positivity
  have hlow : (2 : ℚ) ^ ((a : Int) - b - 1) ≤ |x| := by
    rw [hq, le_div_iff₀ hDpos, show ((a : Int) - b - 1) = (a : Int) - ((b + 1 : Nat) : Int) by push_cast; ring,
      zpow_sub₀ two_ne_zero, zpow_natCast, zpow_natCast, div_mul_eq_mul_div, div_le_iff₀ (by positivity)]
    exact mul_le_mul hN1 hD2.le hDpos.le (by positivity)
  have hhigh : |x| < (2 : ℚ) ^ ((a : Int) - b + 1) := by
    rw [hq, div_lt_iff₀ hDpos, show ((a : Int) - b + 1) = ((a + 1 : Nat) : Int) - (b : Int) by push_cast; ring,
      zpow_sub₀ two_ne_zero, zpow_natCast, zpow_natCast, div_mul_eq_mul_div, lt_div_iff₀ (by positivity)]
    exact mul_lt_mul hN2 hD1 (by positivity) (by positivity)
  have hdef : ilog2 x = if (2 : ℚ) ^ ((a : Int) - b) ≤ |x| then (a : Int) - b else (a : Int) - b - 1 := by
    simp only [ilog2, pow2_eq, mag_eq, a, b]
  rw [hdef]
  split_ifs with h
  · exact ⟨h, hhigh⟩
  · refine ⟨hlow, ?_⟩
    have : ((a : Int) - b - 1 + 1) = (a : Int) - b := by ring
    rw [this]
    exact not_le.1 h

/-- `floor(log2 |x|)` is the only such exponent. -/
theorem ilog2_unique {x : ℚ} (hx : x ≠ 0) {k : Int} (h1 : (2 : ℚ) ^ k ≤ |x|) (h2 : |x| < (2 : ℚ) ^ (k + 1)) :
    ilog2 x = k := by
  obtain ⟨s1, s2⟩ := ilog2_spec hx
  have a1 := (zpow_lt_zpow_iff_right₀ (one_lt_two (α := ℚ))).1 (lt_of_le_of_lt h1 s2)
  have a2 := (zpow_lt_zpow_iff_right₀ (one_lt_two (α := ℚ))).1 (lt_of_le_of_lt s1 h2)
  omega

theorem spacing_pos (fmt : Fmt) (x : ℚ) : 0 < spacing fmt x := pow2_pos _

/-- The nearest integer is at most one half away. -/
theorem nearestEven_close (y : ℚ) : |y - nearestEven y| ≤ 1 / 2 := by
  have h1 := Int.floor_le y
  have h2 := Int.lt_floor_add_one y
  have hf : y.floor = ⌊y⌋ := rfl
  have hh : mkRat 1 2 = 1 / 2 := by rw [Rat.mkRat_eq_div]; norm_num
  unfold nearestEven
  simp only [hf, hh]
  split_ifs <;> rw [abs_le] <;> push_cast <;> constructor <;> linarith

/-- Exactly half-way, the nearest integer is the even one. -/
theorem nearestEven_half {y : ℚ} (h : |y - nearestEven y| = 1 / 2) : nearestEven y % 2 = 0 := by
  have h1 := Int.floor_le y
  have h2 := Int.lt_floor_add_one y
  have hf : y.floor = ⌊y⌋ := rfl
  have hh : mkRat 1 2 = 1 / 2 := by rw [Rat.mkRat_eq_div]; norm_num
  unfold nearestEven at h ⊢
  simp only [hf, hh] at h ⊢
  split_ifs at h ⊢ with c1 c2 c3
  · rw [abs_of_nonneg (by linarith)] at h; linarith
  · push_cast at h
    rw [abs_of_neg (by linarith)] at h; linarith
  · exact c3
  · omega

theorem nearestEven_int (n : Int) : nearestEven (n : ℚ) = n := by
  have hf : (n : ℚ).floor = n := Rat.floor_intCast n
  have hh : (0 : ℚ) < mkRat 1 2 := by rw [Rat.mkRat_eq_div]; norm_num
  unfold nearestEven
  simp [hf, hh]

/-- Rounding to the nearest integer keeps order. -/
theorem nearestEven_mono {x y : ℚ} (h : x ≤ y) : nearestEven x ≤ nearestEven y := by
  by_contra hc
  have hlt : nearestEven y + 1 ≤ nearestEven x := by omega
  have hlt' : (nearestEven y : ℚ) + 1 ≤ nearestEven x := by exact_mod_cast hlt
  obtain ⟨hx1, hx2⟩ := abs_le.1 (nearestEven_close x)
  obtain ⟨hy1, hy2⟩ := abs_le.1 (nearestEven_close y)
  have hxy : x = y := by linarith
  rw [hxy] at hc
  exact hc le_rfl

/-- A representable number is a multiple of the spacing at it. -/
theorem Representable.multiple {fmt : Fmt} {x : ℚ} (h : Representable fmt x) (hx : x ≠ 0) :
    ∃ n : Int, x = n * spacing fmt x := by
  obtain ⟨-, m, k, hk, hm, rfl⟩ := h
  generalize hxdef : (m : ℚ) * (2 : ℚ) ^ k = x at *
  have hm0 : |(m : ℚ)| < 2 ^ prec fmt := by exact_mod_cast hm
  have hlt : |x| < (2 : ℚ) ^ ((prec fmt : Int) + k) := by
    rw [← hxdef, abs_mul, abs_of_pos (show (0 : ℚ) < (2 : ℚ) ^ k by positivity), zpow_add₀ two_ne_zero, zpow_natCast]
    exact mul_lt_mul_of_pos_right hm0 (by positivity)
  have he := (zpow_lt_zpow_iff_right₀ (one_lt_two (α := ℚ))).1 (lt_of_le_of_lt (ilog2_spec hx).1 hlt)
  have hle : max (ilog2 x) (emin fmt) - (prec fmt : Int) + 1 ≤ k := by omega
  obtain ⟨d, hd⟩ := Int.eq_ofNat_of_zero_le (sub_nonneg.2 hle)
  refine ⟨m * 2 ^ d, ?_⟩
  rw [spacing, pow2_eq]
  conv_lhs => rw [← hxdef]
  push_cast
  rw [mul_assoc, ← zpow_natCast, ← zpow_add₀ two_ne_zero]
  congr 2
  omega

/-- Rounding leaves a representable number as it is. -/
theorem roundF_exact {fmt : Fmt} {x : ℚ} (h : Representable fmt x) :
    roundF fmt x = if x = 0 then .zero false else .num x := by
  unfold roundF
  split_ifs with hx
  · rfl
  · obtain ⟨n, hn⟩ := h.multiple hx
    have hq : nearestEven (x / spacing fmt x) = n := by
      have : x / spacing fmt x = n := by
        rw [div_eq_iff (spacing_pos fmt x).ne']
        exact hn
      rw [this, nearestEven_int]
    have hbound : ¬ pow2 (emax fmt + 1) ≤ mag x := by
      rw [pow2_eq, mag_eq, not_le]
      exact h.1
    simp only [hq, ← hn, hx, if_false, hbound]

/-- What rounding a non-zero number gives: the nearest multiple of the spacing, or the infinity beyond the format. -/
theorem roundF_cases {fmt : Fmt} {x : ℚ} (hx : x ≠ 0) :
    ∃ n : Int, n = nearestEven (x / spacing fmt x) ∧
      ((n * spacing fmt x = 0 ∧ roundF fmt x = .zero (decide (x < 0))) ∨
       (n * spacing fmt x ≠ 0 ∧ (2 : ℚ) ^ (emax fmt + 1) ≤ |n * spacing fmt x| ∧
          roundF fmt x = .inf (decide (x < 0))) ∨
       (n * spacing fmt x ≠ 0 ∧ |n * spacing fmt x| < (2 : ℚ) ^ (emax fmt + 1) ∧
          roundF fmt x = .num (n * spacing fmt x))) := by
  refine ⟨_, rfl, ?_⟩
  unfold roundF
  rw [if_neg hx]
  simp only [pow2_eq, mag_eq]
  split_ifs with h1 h2
  · exact .inl ⟨h1, rfl⟩
  · exact .inr (.inl ⟨h1, h2, rfl⟩)
  · exact .inr (.inr ⟨h1, not_le.1 h2, rfl⟩)

/-- A number no greater than a power of two the format has rounds to a number no greater. -/
theorem roundF_bounded {fmt : Fmt} {x : ℚ} {k : Int} (h1 : emin fmt ≤ k) (h2 : k ≤ emax fmt) (hx : |x| ≤ (2 : ℚ) ^ k) :
    ∃ y : ℚ, (roundF fmt x).number = some y ∧ |y| ≤ (2 : ℚ) ^ k := by
  by_cases hx0 : x = 0
  · exact ⟨0, by simp [roundF, hx0, FVal.number], by rw [abs_zero]; positivity⟩
  have hp : 1 ≤ (prec fmt : Int) := by cases fmt <;> simp [prec]
  have hq := spacing_pos fmt x
  have he := (zpow_le_zpow_iff_right₀ (one_lt_two (α := ℚ))).1 ((ilog2_spec hx0).1.trans hx)
  obtain ⟨d, hd⟩ := Int.eq_ofNat_of_zero_le
    (show (0 : Int) ≤ k - (max (ilog2 x) (emin fmt) - (prec fmt : Int) + 1) by omega)
  have hk : (2 : ℚ) ^ k = ((2 ^ d : Int) : ℚ) * spacing fmt x := by
    rw [spacing, pow2_eq]
    push_cast
    rw [← zpow_natCast, ← zpow_add₀ two_ne_zero]
    congr 1
    omega
  obtain ⟨hx1, hx2⟩ := abs_le.1 hx
  have hup : nearestEven (x / spacing fmt x) ≤ 2 ^ d := by
    rw [← nearestEven_int (2 ^ d)]
    exact nearestEven_mono (by rw [div_le_iff₀ hq, ← hk]; exact hx2)
  have hdown : -(2 ^ d) ≤ nearestEven (x / spacing fmt x) := by
    rw [← nearestEven_int (-(2 ^ d))]
    exact nearestEven_mono (by rw [le_div_iff₀ hq]; push_cast at hk ⊢; linarith)
  have hy : |(nearestEven (x / spacing fmt x) : ℚ) * spacing fmt x| ≤ (2 : ℚ) ^ k := by
    rw [abs_mul, abs_of_pos hq, hk]
    refine mul_le_mul_of_nonneg_right ?_ hq.le
    rw [abs_le]
    exact ⟨by exact_mod_cast hdown, by exact_mod_cast hup⟩
  obtain ⟨n, rfl, h | h | h⟩ := roundF_cases (fmt := fmt) hx0
  · exact ⟨0, by simp [h.2, FVal.number], by rw [abs_zero]; positivity⟩
  · exfalso
    have := h.2.1.trans hy
    have := (zpow_le_zpow_iff_right₀ (one_lt_two (α := ℚ))).1 this
    omega
  · exact ⟨_, by rw [h.2.2]; rfl, hy⟩

/-- A rounded number is within half a spacing: one part in `2^p`, or half the least subnormal. -/
theorem roundF_close {fmt : Fmt} {x : ℚ} {k : Int} (h1 : emin fmt ≤ k) (h2 : k ≤ emax fmt) (hx : |x| ≤ (2 : ℚ) ^ k) :
    ∃ y : ℚ, (roundF fmt x).number = some y ∧
      |y - x| ≤ |x| / 2 ^ prec fmt + (2 : ℚ) ^ emin fmt / 2 ^ prec fmt := by
  by_cases hx0 : x = 0
  · exact ⟨0, by simp [roundF, hx0, FVal.number], by rw [hx0]; simp; positivity⟩
  obtain ⟨y, hy, -⟩ := roundF_bounded h1 h2 hx
  refine ⟨y, hy, ?_⟩
  have hq := spacing_pos fmt x
  obtain ⟨n, hn, h⟩ := roundF_cases (fmt := fmt) hx0
  have hyn : y = n * spacing fmt x := by
    rcases h with ⟨h0, h⟩ | ⟨-, -, h⟩ | ⟨-, -, h⟩ <;> rw [h] at hy <;> simp only [FVal.number] at hy
    · rw [h0]; exact (Option.some.inj hy).symm
    · cases hy
    · exact (Option.some.inj hy).symm
  have hhalf : |y - x| ≤ spacing fmt x / 2 := by
    have hc := nearestEven_close (x / spacing fmt x)
    rw [← hn] at hc
    have : y - x = -((x / spacing fmt x - n) * spacing fmt x) := by
      rw [hyn, sub_mul, div_mul_cancel₀ _ hq.ne']; ring
    rw [this, abs_neg, abs_mul, abs_of_pos hq]
    calc _ ≤ 1 / 2 * spacing fmt x := mul_le_mul_of_nonneg_right hc hq.le
      _ = _ := by ring
  have hspace : spacing fmt x / 2 = (2 : ℚ) ^ max (ilog2 x) (emin fmt) / 2 ^ prec fmt := by
    rw [spacing, pow2_eq, zpow_add₀ two_ne_zero, zpow_sub₀ two_ne_zero, zpow_natCast, zpow_one]
    ring
  have hmax : (2 : ℚ) ^ max (ilog2 x) (emin fmt) ≤ |x| + (2 : ℚ) ^ emin fmt := by
    have hpos : (0 : ℚ) < (2 : ℚ) ^ emin fmt := by positivity
    rcases max_choice (ilog2 x) (emin fmt) with h | h <;> rw [h]
    · linarith [(ilog2_spec hx0).1]
    · linarith [abs_nonneg x]
  rw [← add_div]
  exact hhalf.trans (hspace ▸ div_le_div_of_nonneg_right hmax (by positivity))

/-- The number a quotient of finite values stands for. -/
theorem fdiv_number {fmt : Fmt} {a : FVal} {x y : ℚ} (ha : a.number = some x) :
    (fdiv fmt a (.num y)).number = (roundF fmt (x / y)).number := by
  cases a <;> simp only [FVal.number, Option.some.injEq, reduceCtorEq] at ha <;> subst ha
  · simp [fdiv, roundF, FVal.number]
  · rfl

/-- The number a product of finite values stands for. -/
theorem fmul_number {fmt : Fmt} {a b : FVal} {x y : ℚ} (ha : a.number = some x) (hb : b.number = some y) :
    (fmul fmt a b).number = (roundF fmt (x * y)).number := by
  cases a <;> cases b <;> simp only [FVal.number, Option.some.injEq, reduceCtorEq] at ha hb <;> subst ha <;> subst hb <;>
    simp [fmul, roundF, FVal.number]

/-- The number a sum of finite values stands for. -/
theorem fadd_number {fmt : Fmt} {a b : FVal} {x y : ℚ} (ha : a.number = some x) (hb : b.number = some y) :
    (fadd fmt a b).number = (roundF fmt (x + y)).number := by
  cases a <;> cases b <;> simp only [FVal.number, Option.some.injEq, reduceCtorEq] at ha hb <;> subst ha <;> subst hb <;>
    simp [fadd, roundF, FVal.number]

/-- The number an `fma` of finite values stands for: one rounding of the exact product and sum. -/
theorem fma_number {fmt : Fmt} {a b c : FVal} {x y z : ℚ} (ha : a.number = some x) (hb : b.number = some y)
    (hc : c.number = some z) : (fma fmt a b c).number = (roundF fmt (x * y + z)).number := by
  have hp : (exactProduct a b).number = some (x * y) := by
    cases a <;> cases b <;> simp only [FVal.number, Option.some.injEq, reduceCtorEq] at ha hb <;> subst ha <;>
      subst hb <;> simp [exactProduct, FVal.number]
  exact fadd_number hp hc

end Sys2Proof.Machine
end

