-- ==== Sys2Proof/Laws/Operands.lean ====
section
/-! SUPPORT. Sign extension, the assembled fields as numbers, and the bytes of an image. -/

namespace Sys2Proof.Machine

/-- The signed reading of a stored pattern is the two's-complement value of the bit vector. -/
theorem signedValue_eq_toInt {n : Nat} (hn : 0 < n) (u : BitVec n) : signedValue u = u.toInt := by
  obtain ⟨m, rfl⟩ : ∃ m, n = m + 1 := ⟨n - 1, by omega⟩
  have hp : (2 : Nat) ^ (m + 1) = 2 * 2 ^ m := by rw [pow_succ]; omega
  unfold signedValue sext
  rw [BitVec.toInt_eq_toNat_cond, hp]
  simp only [Nat.add_sub_cancel]
  split_ifs <;> first | rfl | omega

/-- Concatenation as arithmetic (00_scope.md R8: `a ++ b = a * 2^width(b) + b`). -/
theorem append_toNat {n m : Nat} (x : BitVec n) (y : BitVec m) :
    (x ++ y).toNat = 2 ^ m * x.toNat + y.toNat := by
  rw [BitVec.toNat_append, ← Nat.shiftLeft_add_eq_or_of_lt y.isLt, Nat.shiftLeft_eq, Nat.mul_comm]

theorem assembleC00_toNat (b0 b1 : Byte) (hi : Nibble) :
    (assembleC00 b0 b1 hi).toNat = 4096 * b0.toNat + 16 * b1.toNat + hi.toNat := by
  show (b0 ++ b1 ++ hi : BitVec (8 + 8 + 4)).toNat = _
  rw [append_toNat, append_toNat]; omega

theorem assembleC10_toNat (lo : Nibble) (b3 b4 : Byte) :
    (assembleC10 lo b3 b4).toNat = 65536 * lo.toNat + 256 * b3.toNat + b4.toNat := by
  show (lo ++ b3 ++ b4 : BitVec (4 + 8 + 8)).toNat = _
  rw [append_toNat, append_toNat]; omega

theorem assemble16_toNat (high low : Byte) : (assemble16 high low).toNat = 256 * high.toNat + low.toNat := by
  show (high ++ low : BitVec (8 + 8)).toNat = _
  rw [append_toNat]; omega

theorem assembleRaw_toNat (s0 s1 s2 : Byte) :
    (assembleRaw s0 s1 s2).toNat = 65536 * s0.toNat + 256 * s1.toNat + s2.toNat := by
  show (s0 ++ s1 ++ s2 : BitVec (8 + 8 + 8)).toNat = _
  rw [append_toNat, append_toNat]; omega

theorem splitShared_high (b : Byte) : (splitShared b).1.toNat = b.toNat / 16 := by
  have := b.isLt
  simp only [splitShared, BitVec.extractLsb'_toNat, Nat.shiftRight_eq_div_pow]
  omega

theorem splitShared_low (b : Byte) : (splitShared b).2.toNat = b.toNat % 16 := by
  simp only [splitShared, BitVec.extractLsb'_toNat, Nat.shiftRight_eq_div_pow]
  omega

@[simp] theorem bytesValue_nil : bytesValue [] = 0 := rfl

theorem bytesValue_append (xs : List Byte) (b : Byte) : bytesValue (xs ++ [b]) = 256 * bytesValue xs + b.toNat := by
  simp [bytesValue]

theorem bytesValue_lt (xs : List Byte) : bytesValue xs < 256 ^ xs.length := by
  induction xs using List.reverseRecOn with
  | nil => simp
  | append_singleton xs b ih =>
    have := b.isLt
    rw [bytesValue_append, List.length_append, List.length_singleton, pow_succ]
    omega

/-- Dropping the last `k` bytes of the string is dividing its value by `256^k`. -/
theorem bytesValue_append_div (xs ys : List Byte) : bytesValue (xs ++ ys) / 256 ^ ys.length = bytesValue xs := by
  induction ys using List.reverseRecOn with
  | nil => simp
  | append_singleton ys b ih =>
    have := b.isLt
    rw [← List.append_assoc, bytesValue_append, List.length_append, List.length_singleton, pow_succ',
      ← Nat.div_div_eq_div_mul]
    rw [show (256 * bytesValue (xs ++ ys) + b.toNat) / 256 = bytesValue (xs ++ ys) by omega, ih]

/-- Byte `i` of a byte string, counted from the front, found in its value. -/
theorem bytesValue_byte (bytes : List Byte) (i : Nat) (hi : i < bytes.length) :
    bytesValue bytes / 256 ^ (bytes.length - 1 - i) % 256 = bytes[i].toNat := by
  have hsplit : bytes = (bytes.take i ++ [bytes[i]]) ++ bytes.drop (i + 1) := by simp
  have hlen : (bytes.drop (i + 1)).length = bytes.length - 1 - i := by simp; omega
  have h := bytesValue_append_div (bytes.take i ++ [bytes[i]]) (bytes.drop (i + 1))
  rw [← hsplit, hlen, bytesValue_append] at h
  rw [h]
  have := bytes[i].isLt
  omega

theorem calByte_toNat (img : BitVec 120) (i : Nat) : (calByte img i).toNat = img.toNat / 2 ^ (112 - 8 * i) % 256 := by
  simp [calByte, BitVec.extractLsb'_toNat, Nat.shiftRight_eq_div_pow]

theorem rawByte_toNat (raw : BitVec 24) (i : Nat) : (rawByte raw i).toNat = raw.toNat / 2 ^ (16 - 8 * i) % 256 := by
  simp [rawByte, BitVec.extractLsb'_toNat, Nat.shiftRight_eq_div_pow]

/-- `B[i]` of the image of 15 bytes is byte `i`. -/
theorem calByte_calImage (bytes : List Byte) (h : bytes.length = 15) (i : Nat) (hi : i < bytes.length) :
    calByte (calImage bytes) i = bytes[i] := by
  apply BitVec.eq_of_toNat_eq
  have hlt := bytesValue_lt bytes
  have hb := bytesValue_byte bytes i hi
  rw [h] at hlt hb
  have hmod : bytesValue bytes % 2 ^ 120 = bytesValue bytes := Nat.mod_eq_of_lt (by simpa using hlt)
  have hpow : (256 : Nat) ^ (15 - 1 - i) = 2 ^ (112 - 8 * i) := by
    rw [show (256 : Nat) = 2 ^ 8 from rfl, ← pow_mul, show 8 * (15 - 1 - i) = 112 - 8 * i by omega]
  rw [calByte_toNat, calImage, BitVec.toNat_ofNat, hmod, ← hb, hpow]

/-- `S[i]` of the raw image of 3 bytes is byte `i`. -/
theorem rawByte_rawImage (bytes : List Byte) (h : bytes.length = 3) (i : Nat) (hi : i < bytes.length) :
    rawByte (rawImage bytes) i = bytes[i] := by
  apply BitVec.eq_of_toNat_eq
  have hlt := bytesValue_lt bytes
  have hb := bytesValue_byte bytes i hi
  rw [h] at hlt hb
  have hmod : bytesValue bytes % 2 ^ 24 = bytesValue bytes := Nat.mod_eq_of_lt (by simpa using hlt)
  have hpow : (256 : Nat) ^ (3 - 1 - i) = 2 ^ (16 - 8 * i) := by
    rw [show (256 : Nat) = 2 ^ 8 from rfl, ← pow_mul, show 8 * (3 - 1 - i) = 16 - 8 * i by omega]
  rw [rawByte_toNat, rawImage, BitVec.toNat_ofNat, hmod, ← hb, hpow]

/-- Assembling the three bytes of a raw image gives the image back. -/
theorem decodeSample_eq (raw : BitVec 24) : decodeSample raw = raw := by
  apply BitVec.eq_of_toNat_eq
  have := raw.isLt
  rw [decodeSample, assembleRaw_toNat, rawByte_toNat, rawByte_toNat, rawByte_toNat]
  norm_num
  omega

end Sys2Proof.Machine
end

