-- ==== Sys2Proof/Laws/Ops.lean ====
section
/-! SUPPORT. What a `MemRead`, the read loop and the body of a reading command can do, each said once. -/

namespace Sys2Proof.Machine

/-- The world outside after reads from loop index `idx` on. -/
theorem recordRead_afterReads (base : RegAddr) (idx : Nat) (a : Option Byte) (answers : List (Option Byte)) (e : Env) :
    { recordRead (base + BitVec.ofNat 8 idx) a e with
      replies := (recordRead (base + BitVec.ofNat 8 idx) a e).replies.drop answers.length
      history := (recordRead (base + BitVec.ofNat 8 idx) a e).history ++ readEvents base (idx + 1) answers } =
    { e with replies := e.replies.drop (a :: answers).length
             history := e.history ++ readEvents base idx (a :: answers) } := by
  simp [recordRead, readEvents]

/-- A loop that ends well has staged one byte per read. -/
theorem readLoop_done {base : RegAddr} {n idx : Nat} {e e' : Env} {staged : List Byte}
    (h : readLoop base n idx e = .done staged e') :
    staged.length = n ∧
      e' = { e with replies := e.replies.drop n, history := e.history ++ readEvents base idx (staged.map some) } := by
  induction n generalizing idx e staged with
  | zero =>
    obtain ⟨rfl, rfl⟩ : [] = staged ∧ e = e' := by simpa [readLoop] using h
    simp [readEvents]
  | succ n ih =>
    simp only [readLoop] at h
    split at h
    · rename_i b _
      generalize hr : readLoop base n (idx + 1) (recordRead (base + BitVec.ofNat 8 idx) (some b) e) = r at h
      cases r with
      | done st e1 =>
        obtain ⟨rfl, rfl⟩ : b :: st = staged ∧ e1 = e' := by simpa [ReadResult.stage] using h
        obtain ⟨hl, rfl⟩ := ih hr
        have := recordRead_afterReads base idx (some b) (st.map some) e
        simp only [List.length_map, List.length_cons, hl] at this
        exact ⟨by simp [hl], by simpa using this⟩
      | failed e1 => simp [ReadResult.stage] at h
      | reset e1 => simp [ReadResult.stage] at h
      | hung => simp [ReadResult.stage] at h
    all_goals simp at h

/-- A loop that a failed read ends: all reads before it succeeded, and none comes after. -/
theorem readLoop_failed {base : RegAddr} {n idx : Nat} {e e' : Env} (h : readLoop base n idx e = .failed e') :
    ∃ got : List Byte, got.length < n ∧
      e' = { e with replies := e.replies.drop (got.length + 1)
                    history := e.history ++ readEvents base idx (got.map some ++ [none]) } := by
  induction n generalizing idx e with
  | zero => simp [readLoop] at h
  | succ n ih =>
    simp only [readLoop] at h
    split at h
    · rename_i b _
      generalize hr : readLoop base n (idx + 1) (recordRead (base + BitVec.ofNat 8 idx) (some b) e) = r at h
      cases r with
      | failed e1 =>
        obtain rfl : e1 = e' := by simpa [ReadResult.stage] using h
        obtain ⟨got, hl, rfl⟩ := ih hr
        have := recordRead_afterReads base idx (some b) (got.map some ++ [none]) e
        exact ⟨b :: got, by simpa using hl, by simpa using this⟩
      | done st e1 => simp [ReadResult.stage] at h
      | reset e1 => simp [ReadResult.stage] at h
      | hung => simp [ReadResult.stage] at h
    · obtain rfl : recordRead (base + BitVec.ofNat 8 idx) none e = e' := by simpa using h
      exact ⟨[], by simp, by simp [recordRead, readEvents]⟩
    all_goals simp at h

/-- A loop that reset cuts off: reset is listed. -/
theorem readLoop_reset {base : RegAddr} {n idx : Nat} {e e' : Env} (h : readLoop base n idx e = .reset e') :
    Reply.reset ∈ e.replies ∧ ∃ got : List Byte, got.length < n ∧
      e' = { e with replies := e.replies.drop (got.length + 1)
                    history := e.history ++ readEvents base idx (got.map some ++ [none]) } := by
  induction n generalizing idx e with
  | zero => simp [readLoop] at h
  | succ n ih =>
    simp only [readLoop] at h
    split at h
    · rename_i b _
      generalize hr : readLoop base n (idx + 1) (recordRead (base + BitVec.ofNat 8 idx) (some b) e) = r at h
      cases r with
      | reset e1 =>
        obtain rfl : e1 = e' := by simpa [ReadResult.stage] using h
        obtain ⟨hm, got, hl, rfl⟩ := ih hr
        have := recordRead_afterReads base idx (some b) (got.map some ++ [none]) e
        exact ⟨List.mem_of_mem_tail hm, b :: got, by simpa using hl, by simpa using this⟩
      | done st e1 => simp [ReadResult.stage] at h
      | failed e1 => simp [ReadResult.stage] at h
      | hung => simp [ReadResult.stage] at h
    · simp at h
    · rename_i hn
      obtain rfl : recordRead (base + BitVec.ofNat 8 idx) none e = e' := by simpa using h
      refine ⟨?_, [], by simp, by simp [recordRead, readEvents]⟩
      unfold nextAnswer at hn
      split at hn <;> first | (split at hn <;> simp at hn) | simp_all
    · simp at h

theorem stage_eq_hung {b : Byte} {r : ReadResult} : r.stage b = .hung ↔ r = .hung := by
  cases r <;> simp [ReadResult.stage]

/-- The loop is stuck exactly when `hangs` says so. -/
theorem readLoop_hung_iff (base : RegAddr) (n idx : Nat) (e : Env) :
    readLoop base n idx e = .hung ↔ hangs n e.replies = true := by
  induction n generalizing idx e with
  | zero => simp [readLoop, hangs]
  | succ n ih =>
    obtain ⟨inputs, replies, device, history, extOut⟩ := e
    simp only [readLoop, nextAnswer]
    cases replies with
    | nil =>
      cases Config.transport history.length (base + BitVec.ofNat 8 idx) with
      | none => simp [hangs]
      | some b => cases n <;> simp [stage_eq_hung, ih, recordRead, hangs]
    | cons r rest => cases r <;> simp [stage_eq_hung, ih, recordRead, hangs]

/-- No read is left unanswered when no listed reply says so. -/
theorem hangs_eq_false {replies : List Reply} (h : Reply.never ∉ replies) (n : Nat) : hangs n replies = false := by
  induction n generalizing replies with
  | zero => simp [hangs]
  | succ n ih =>
    cases replies with
    | nil => simp [hangs]
    | cons r rest =>
      have hrest : Reply.never ∉ rest := fun hm => h (List.mem_cons_of_mem _ hm)
      cases r <;> simp_all [hangs]

/-- The loop over listed bytes. -/
theorem readLoop_listed (base : RegAddr) (bytes : List Byte) (idx : Nat) (e : Env) (rest : List Reply)
    (h : e.replies = bytes.map .byte ++ rest) :
    readLoop base bytes.length idx e =
      .done bytes { e with replies := rest, history := e.history ++ readEvents base idx (bytes.map some) } := by
  induction bytes generalizing idx e with
  | nil =>
    obtain rfl : e.replies = rest := by simpa using h
    simp [readLoop, readEvents]
  | cons b bytes ih =>
    have hn : nextAnswer e (base + BitVec.ofNat 8 idx) = .byte b := by simp [nextAnswer, h]
    simp only [List.length_cons, readLoop, hn]
    rw [ih (idx + 1) (recordRead _ _ e) (by simp [h])]
    simp [ReadResult.stage, recordRead, readEvents]

/-- The loop over listed bytes and then a failure. -/
theorem readLoop_listed_failed (base : RegAddr) (bytes : List Byte) (n idx : Nat) (e : Env) (rest : List Reply)
    (hn : bytes.length < n) (h : e.replies = bytes.map .byte ++ .failed :: rest) :
    readLoop base n idx e =
      .failed { e with replies := rest
                       history := e.history ++ readEvents base idx (bytes.map some ++ [none]) } := by
  induction bytes generalizing n idx e with
  | nil =>
    obtain ⟨m, rfl⟩ : ∃ m, n = m + 1 := ⟨n - 1, by simp at hn; omega⟩
    have ha : nextAnswer e (base + BitVec.ofNat 8 idx) = .failed := by simp [nextAnswer, h]
    simp [readLoop, ha, readEvents, recordRead, h]
  | cons b bytes ih =>
    obtain ⟨m, rfl⟩ : ∃ m, n = m + 1 := ⟨n - 1, by omega⟩
    have ha : nextAnswer e (base + BitVec.ofNat 8 idx) = .byte b := by simp [nextAnswer, h]
    simp only [readLoop, ha]
    rw [ih m (idx + 1) (recordRead _ _ e) (by simpa using hn) (by simp [h])]
    simp [ReadResult.stage, recordRead, readEvents]

/-- Listed bytes leave no read unanswered. -/
theorem hangs_listed (bytes : List Byte) (rest : List Reply) : hangs bytes.length (bytes.map .byte ++ rest) = false := by
  induction bytes with
  | nil => simp [hangs]
  | cons b bytes ih => simpa [hangs] using ih

theorem hangs_listed_failed (bytes : List Byte) (rest : List Reply) (n : Nat) (hn : bytes.length < n) :
    hangs n (bytes.map .byte ++ .failed :: rest) = false := by
  induction bytes generalizing n with
  | nil =>
    obtain ⟨m, rfl⟩ : ∃ m, n = m + 1 := ⟨n - 1, by simp at hn; omega⟩
    simp [hangs]
  | cons b bytes ih =>
    obtain ⟨m, rfl⟩ : ∃ m, n = m + 1 := ⟨n - 1, by omega⟩
    simpa [hangs] using ih m (by simpa using hn)

/-- Everything the body of a reading command can do. -/
theorem runReads_cases {who : Reader} {commit : List Byte → State → State} {s : State} {r : Result}
    (h : runReads who commit s = r) :
    (hangs who.count s.env.replies = true ∧ r = .fault .transportNeverAnswers) ∨
    (∃ staged : List Byte, staged.length = who.count ∧
      r = .next (complete (commit staged { s with env := afterReads who.base (staged.map some) s.env }))) ∨
    (∃ got : List Byte, got.length < who.count ∧
      r = .next (raiseTransport who { s with env := afterReads who.base (got.map some ++ [none]) s.env })) ∨
    (Reply.reset ∈ s.env.replies ∧ ∃ got : List Byte, got.length < who.count ∧
      r = .next (resetBlock { s with env := afterReads who.base (got.map some ++ [none]) s.env })) := by
  unfold runReads at h
  split_ifs at h with hh
  · exact .inl ⟨hh, h.symm⟩
  · right
    generalize hr : readLoop who.base who.count 0 s.env = rr at h
    cases rr with
    | done staged e =>
      obtain ⟨hl, rfl⟩ := readLoop_done hr
      exact .inl ⟨staged, hl, by simpa [afterReads, hl] using h.symm⟩
    | failed e =>
      obtain ⟨got, hl, rfl⟩ := readLoop_failed hr
      exact .inr (.inl ⟨got, hl, by simpa [afterReads] using h.symm⟩)
    | reset e =>
      obtain ⟨hm, got, hl, rfl⟩ := readLoop_reset hr
      exact .inr (.inr ⟨hm, got, hl, by simpa [afterReads] using h.symm⟩)
    | hung => exact absurd ((readLoop_hung_iff _ _ _ _).1 hr) hh

/-- A reading command whose bytes are listed. -/
theorem runReads_listed (who : Reader) (commit : List Byte → State → State) (s : State) (bytes : List Byte)
    (rest : List Reply) (hl : bytes.length = who.count) (h : s.env.replies = bytes.map .byte ++ rest) :
    runReads who commit s =
      .next (complete (commit bytes { s with env := afterReads who.base (bytes.map some) s.env })) := by
  have hh : hangs who.count s.env.replies = false := by rw [h, ← hl]; exact hangs_listed bytes rest
  rw [h] at hh
  have hloop := readLoop_listed who.base bytes 0 s.env rest h
  rw [hl] at hloop
  simp [runReads, hh, hloop, afterReads, h]

/-- A reading command whose read number `bytes.length` fails. -/
theorem runReads_listed_failed (who : Reader) (commit : List Byte → State → State) (s : State) (bytes : List Byte)
    (rest : List Reply) (hl : bytes.length < who.count) (h : s.env.replies = bytes.map .byte ++ .failed :: rest) :
    runReads who commit s =
      .next (raiseTransport who { s with env := afterReads who.base (bytes.map some ++ [none]) s.env }) := by
  have hh : hangs who.count s.env.replies = false := by rw [h]; exact hangs_listed_failed bytes rest _ hl
  rw [h] at hh
  have hloop := readLoop_listed_failed who.base bytes who.count 0 s.env rest hl h
  have hd : List.drop (bytes.length + 1) (bytes.map Reply.byte ++ .failed :: rest) = rest := by
    rw [List.drop_append]; simp
  simp [runReads, hh, hloop, afterReads, h, hd]

@[simp] theorem afterReads_inputs (b : RegAddr) (as : List (Option Byte)) (e : Env) :
    (afterReads b as e).inputs = e.inputs := rfl
@[simp] theorem afterReads_device (b : RegAddr) (as : List (Option Byte)) (e : Env) :
    (afterReads b as e).device = e.device := rfl
@[simp] theorem afterReads_extOut (b : RegAddr) (as : List (Option Byte)) (e : Env) :
    (afterReads b as e).extOut = e.extOut := rfl

end Sys2Proof.Machine
end

