-- ==== Sys2Proof/Laws/PerInstr.lean ====
section
/-! SUPPORT. One family of statements for all instructions: the form of an instruction's word. -/

namespace Sys2Proof.Laws.EncodedForm

/-- The format and the name of each row of opcode_table.json. -/
def rowOf : Instr → Format × String
  | .nop => (.CMD, "NOP")
  | .calLoad => (.CMD, "CAL_LOAD")
  | .rdPrs => (.CMD, "RD_PRS")
  | .rdTmp => (.CMD, "RD_TMP")
  | .comp => (.CMD, "COMP")
  | .extC00 _ _ _ => (.CAL15, "EXT.C00")
  | .extC10 _ _ _ => (.CAL15, "EXT.C10")
  | .extC01 _ _ => (.CAL15, "EXT.C01")
  | .extC11 _ _ => (.CAL15, "EXT.C11")
  | .extC20 _ _ => (.CAL15, "EXT.C20")
  | .extC21 _ _ => (.CAL15, "EXT.C21")
  | .extC30 _ _ => (.CAL15, "EXT.C30")
  | .extPraw _ _ _ => (.RAW3, "EXT.PRAW")
  | .extTraw _ _ _ => (.RAW3, "EXT.TRAW")

/-- The word of the instruction is of its row's format and is not reserved; the instruction is well formed and carries
its row's mnemonic (30_encoding.md R80, R82, R83, R86). -/
def Statement (i : Instr) : Prop :=
  (encode i).format = (rowOf i).1 ∧ (encode i).wellFormed = true ∧ i.wellFormed = true ∧ i.mnemonic = (rowOf i).2

theorem nop : Statement .nop := ⟨rfl, rfl, rfl, rfl⟩

theorem calLoad : Statement .calLoad := ⟨rfl, rfl, rfl, rfl⟩

theorem rdPrs : Statement .rdPrs := ⟨rfl, rfl, rfl, rfl⟩

theorem rdTmp : Statement .rdTmp := ⟨rfl, rfl, rfl, rfl⟩

theorem comp : Statement .comp := ⟨rfl, rfl, rfl, rfl⟩

theorem extC00 (b0 b1 b2 : Byte) : Statement (.extC00 b0 b1 b2) := ⟨rfl, rfl, rfl, rfl⟩

theorem extC10 (b2 b3 b4 : Byte) : Statement (.extC10 b2 b3 b4) := ⟨rfl, rfl, rfl, rfl⟩

theorem extC01 (b5 b6 : Byte) : Statement (.extC01 b5 b6) := ⟨rfl, rfl, rfl, rfl⟩

theorem extC11 (b7 b8 : Byte) : Statement (.extC11 b7 b8) := ⟨rfl, rfl, rfl, rfl⟩

theorem extC20 (b9 b10 : Byte) : Statement (.extC20 b9 b10) := ⟨rfl, rfl, rfl, rfl⟩

theorem extC21 (b11 b12 : Byte) : Statement (.extC21 b11 b12) := ⟨rfl, rfl, rfl, rfl⟩

theorem extC30 (b13 b14 : Byte) : Statement (.extC30 b13 b14) := ⟨rfl, rfl, rfl, rfl⟩

theorem extPraw (s0 s1 s2 : Byte) : Statement (.extPraw s0 s1 s2) := ⟨rfl, rfl, rfl, rfl⟩

theorem extTraw (s0 s1 s2 : Byte) : Statement (.extTraw s0 s1 s2) := ⟨rfl, rfl, rfl, rfl⟩

end Sys2Proof.Laws.EncodedForm
end

