-- ==== Sys2Proof/Laws/Step.lean ====
section
/-! SUPPORT. What decoding gives, everything an instruction can do and everything a step can do, each said once. -/

namespace Sys2Proof.Machine

/-! ### Words -/

theorem calByte_or (x y : BitVec 120) (j : Nat) : calByte (x ||| y) j = calByte x j ||| calByte y j := by
  simp [calByte, BitVec.extractLsb'_or]

/-- A byte placed in the image is found in its own place and nowhere else. -/
theorem calByte_calPlace (i j : Nat) (b : Byte) (hi : i ≤ 14) (hj : j ≤ 14) :
    calByte (calPlace i b) j = if i = j then b else 0#8 := by
  ext k hk
  have hk' : 112 - 8 * j + k < 120 := by omega
  simp only [calByte, calPlace, BitVec.getElem_extractLsb', BitVec.getLsbD_shiftLeft, BitVec.getLsbD_setWidth]
  rcases Nat.lt_trichotomy i j with h | h | h
  · have : 112 - 8 * j + k < 112 - 8 * i := by omega
    simp [this, (show i ≠ j by omega)]
  · subst h
    simp [hk', hk]
    intro _
    omega
  · have h1 : ¬ 112 - 8 * j + k < 112 - 8 * i := by omega
    have h2 : b.getLsbD (112 - 8 * j + k - (112 - 8 * i)) = false := BitVec.getLsbD_of_ge _ _ (by omega)
    simp [h1, h2, (show i ≠ j by omega)]

/-- A reserved code is refused, in every phase (30_encoding.md R82). -/
theorem dispatch_reserved (s : State) (code : BitVec 3) (h : 4 < code.toNat) :
    dispatch (.cmd code) s = .next (refuse .eIllCmd s) := by
  have hlt := code.isLt
  simp only [dispatch, decode, decodeCmd]
  split <;> rename_i hd
  · split at hd <;> first | omega | simp at hd
  · rfl

/-- Only a reserved command code has no instruction. -/
theorem decode_error {w : CodeWord} {e : DecodeError} (h : decode w = .error e) : w.wellFormed = false := by
  cases w with
  | cmd code =>
    have hlt := code.isLt
    obtain ⟨n, hn⟩ : ∃ n, n = code.toNat := ⟨_, rfl⟩
    simp only [decode, decodeCmd, ← hn] at h
    simp only [CodeWord.wellFormed, ← hn, decide_eq_false_iff_not]
    rw [← hn] at hlt
    interval_cases n <;> first | omega | simp at h
  | cal15 f img => simp [decode] at h
  | raw3 f raw => simp [decode] at h

/-- The one word of `CAL_LOAD`. -/
theorem decode_calLoad {w : CodeWord} (h : decode w = .ok .calLoad) : w = .cmd 0b001#3 := by
  cases w with
  | cmd code =>
    simp only [decode, decodeCmd] at h
    split at h <;> simp at h
    rename_i hc
    rw [BitVec.eq_of_toNat_eq (x := code) (y := 0b001#3) hc]
  | cal15 f img => cases f <;> simp [decode, decodeCal] at h
  | raw3 f raw => cases f <;> simp [decode, decodeRaw] at h

/-! ### Values -/

theorem valueC00_eq (b0 b1 b2 : Byte) :
    valueC00 b0 b1 b2 = sext 20 (4096 * b0.toNat + 16 * b1.toNat + b2.toNat / 16) := by
  rw [valueC00, signedValue, assembleC00_toNat, splitShared_high]

theorem valueC10_eq (b2 b3 b4 : Byte) :
    valueC10 b2 b3 b4 = sext 20 (65536 * (b2.toNat % 16) + 256 * b3.toNat + b4.toNat) := by
  rw [valueC10, signedValue, assembleC10_toNat, splitShared_low]

theorem value16_eq (high low : Byte) : value16 high low = sext 16 (256 * high.toNat + low.toNat) := by
  rw [value16, signedValue, assemble16_toNat]

theorem valueRaw_eq (s0 s1 s2 : Byte) :
    valueRaw s0 s1 s2 = sext 24 (65536 * s0.toNat + 256 * s1.toNat + s2.toNat) := by
  rw [valueRaw, signedValue, assembleRaw_toNat]

/-- Every pattern is of its format. -/
theorem toBits_fmt (fmt : Fmt) (v : FVal) : (v.toBits fmt).fmt = fmt := by
  cases fmt <;> cases v <;> simp only [FVal.toBits, packFields] <;> (try split_ifs) <;> rfl

/-! ### Instructions -/

/-- A command that reads and is not refused is its reads. -/
theorem reader_runs {who : Reader} {s : State} (h : refusalCode who.instr s = none) :
    ∃ commit, exec who.instr s = runReads who commit s := by
  cases who <;> cases hp : s.phase <;>
    simp_all [Reader.instr, refusalCode, exec, execCalLoad, execRdPrs, execRdTmp] <;> exact ⟨_, rfl⟩

/-- `RES` codes of refusals; neither `NOP` nor an extraction function is ever refused. -/
theorem refusalCode_some {i : Instr} {s : State} {code : ResultCode} (h : refusalCode i s = some code) :
    code ≠ .ok ∧ code ≠ .eTransport ∧ i ≠ .nop ∧ isCommand i = true := by
  unfold refusalCode at h
  split at h <;> simp at h <;> (try subst h) <;> (try simp [isCommand])
  rcases h with ⟨_, rfl⟩
  simp

/-- Everything an instruction can do when it gives a next state: `Effect i s t` says that `i` may take `s` to `t`. -/
inductive Effect : Instr → State → State → Prop where
  | nop (s : State) : Effect .nop s s
  | refused (i : Instr) (s : State) (code : ResultCode) : refusalCode i s = some code → Effect i s (refuse code s)
  | loaded (s : State) (staged : List Byte) : s.phase = .unloaded → staged.length = 15 →
      Effect .calLoad s (complete (commitCoefs (decodeImage (calImage staged))
        { s with env := afterReads 0x13#8 (staged.map some) s.env }))
  | readPrs (s : State) (staged : List Byte) : refusalCode .rdPrs s = none → staged.length = 3 →
      Effect .rdPrs s (complete (commitPRaw (decodeSample (rawImage staged))
        { s with env := afterReads 0x00#8 (staged.map some) s.env }))
  | readTmp (s : State) (staged : List Byte) : refusalCode .rdTmp s = none → staged.length = 3 →
      Effect .rdTmp s (complete (commitTRaw (decodeSample (rawImage staged))
        { s with env := afterReads 0x03#8 (staged.map some) s.env }))
  | readFailed (who : Reader) (s : State) (got : List Byte) : refusalCode who.instr s = none →
      got.length < who.count →
      Effect who.instr s (raiseTransport who { s with env := afterReads who.base (got.map some ++ [none]) s.env })
  | readReset (who : Reader) (s : State) (got : List Byte) : Reply.reset ∈ s.env.replies →
      refusalCode who.instr s = none → got.length < who.count →
      Effect who.instr s (resetBlock { s with env := afterReads who.base (got.map some ++ [none]) s.env })
  | computed (s : State) (c : Coefs) (t p : BitVec 24) : s.phase = .ready → s.pFresh = true → s.tFresh = true →
      s.coef = some c → s.tRaw = some t → s.pRaw = some p →
      Effect .comp s (complete (commitPressure (pressureOf s.params c t p) s))
  | extracted (i : Instr) (s : State) (v : Int) : isCommand i = false → Effect i s (giveValue v s)

theorem execCalLoad_effect {s t : State} (h : execCalLoad s = .next t) : Effect .calLoad s t := by
  unfold execCalLoad at h
  split at h <;> rename_i hp
  · cases h; exact .refused _ _ _ (by simp [refusalCode, hp])
  · cases h; exact .refused _ _ _ (by simp [refusalCode, hp])
  · have hn : refusalCode (Reader.instr .calLoad) s = none := by simp [refusalCode, hp, Reader.instr]
    rcases runReads_cases h with ⟨_, h⟩ | ⟨st, hl, h⟩ | ⟨got, hl, h⟩ | ⟨hm, got, hl, h⟩ <;> cases h
    · exact .loaded s st hp hl
    · exact .readFailed .calLoad s got hn hl
    · exact .readReset .calLoad s got hm hn hl

theorem execRdPrs_effect {s t : State} (h : execRdPrs s = .next t) : Effect .rdPrs s t := by
  unfold execRdPrs at h
  split at h <;> rename_i hp
  · cases h; exact .refused _ _ _ (by simp [refusalCode, hp])
  all_goals
    have hn : refusalCode (Reader.instr .rdPrs) s = none := by simp [refusalCode, hp, Reader.instr]
    rcases runReads_cases h with ⟨_, h⟩ | ⟨st, hl, h⟩ | ⟨got, hl, h⟩ | ⟨hm, got, hl, h⟩ <;> cases h
    · exact .readPrs s st hn hl
    · exact .readFailed .rdPrs s got hn hl
    · exact .readReset .rdPrs s got hm hn hl

theorem execRdTmp_effect {s t : State} (h : execRdTmp s = .next t) : Effect .rdTmp s t := by
  unfold execRdTmp at h
  split at h <;> rename_i hp
  · cases h; exact .refused _ _ _ (by simp [refusalCode, hp])
  all_goals
    have hn : refusalCode (Reader.instr .rdTmp) s = none := by simp [refusalCode, hp, Reader.instr]
    rcases runReads_cases h with ⟨_, h⟩ | ⟨st, hl, h⟩ | ⟨got, hl, h⟩ | ⟨hm, got, hl, h⟩ <;> cases h
    · exact .readTmp s st hn hl
    · exact .readFailed .rdTmp s got hn hl
    · exact .readReset .rdTmp s got hm hn hl

theorem execComp_effect {s t : State} (h : execComp s = .next t) : Effect .comp s t := by
  unfold execComp at h
  split at h <;> rename_i hp
  · cases h; exact .refused _ _ _ (by simp [refusalCode, hp])
  · cases h; exact .refused _ _ _ (by simp [refusalCode, hp])
  · split_ifs at h with hf
    · cases h
      exact .refused _ _ _ (by rcases hf with hf | hf <;> simp [refusalCode, hp, hf])
    · have hf1 : s.pFresh = true := by cases hx : s.pFresh <;> simp_all
      have hf2 : s.tFresh = true := by cases hx : s.tFresh <;> simp_all
      simp only [readCoefs, calValid, hp, readTRaw, readPRaw, hf1, hf2] at h
      split at h
      · rename_i c t' p h1 h2 h3
        cases h
        exact .computed s c t' p hp hf1 hf2 (by simpa using h1) (by simpa using h2) (by simpa using h3)
      · simp at h

/-- Every next state of an instruction is one of those `Effect` names. -/
theorem exec_effect {i : Instr} {s t : State} (h : exec i s = .next t) : Effect i s t := by
  cases i with
  | nop => cases h; exact .nop s
  | calLoad => exact execCalLoad_effect h
  | rdPrs => exact execRdPrs_effect h
  | rdTmp => exact execRdTmp_effect h
  | comp => exact execComp_effect h
  | extC00 => cases h; exact .extracted _ _ _ rfl
  | extC10 => cases h; exact .extracted _ _ _ rfl
  | extC01 => cases h; exact .extracted _ _ _ rfl
  | extC11 => cases h; exact .extracted _ _ _ rfl
  | extC20 => cases h; exact .extracted _ _ _ rfl
  | extC21 => cases h; exact .extracted _ _ _ rfl
  | extC30 => cases h; exact .extracted _ _ _ rfl
  | extPraw => cases h; exact .extracted _ _ _ rfl
  | extTraw => cases h; exact .extracted _ _ _ rfl

/-! ### The step -/

/-- Everything a step can do when it gives a next state. -/
theorem step_cases {s t : State} (h : step s = .next t) :
    (s.env.inputs = [] ∧ t = s) ∨
    (∃ w rest i, s.env.inputs = .present w :: rest ∧ decode w = .ok i ∧ Effect i (takeInput rest s) t) ∨
    (∃ w rest, s.env.inputs = .present w :: rest ∧ w.wellFormed = false ∧
      t = refuse .eIllCmd (takeInput rest s)) ∨
    (∃ rest, s.env.inputs = .reset :: rest ∧ t = resetBlock (takeInput rest s)) ∨
    (∃ r v ok rest, s.env.inputs = .configWrite r v ok :: rest ∧ t = hostWrite r v ok (takeInput rest s)) ∨
    (∃ a v rest, s.env.inputs = .deviceChanges a v :: rest ∧ t = deviceChange a v (takeInput rest s)) := by
  unfold step at h
  split at h
  · rename_i h0
    exact .inl ⟨h0, (Host.Outcome.next.inj h).symm⟩
  · rename_i w rest h0
    unfold dispatch at h
    split at h
    · rename_i i hi
      exact .inr (.inl ⟨w, rest, i, h0, hi, exec_effect h⟩)
    · rename_i e he
      exact .inr (.inr (.inl ⟨w, rest, h0, decode_error he, (Host.Outcome.next.inj h).symm⟩))
  · rename_i rest h0
    exact .inr (.inr (.inr (.inl ⟨rest, h0, (Host.Outcome.next.inj h).symm⟩)))
  · rename_i r v ok rest h0
    exact .inr (.inr (.inr (.inr (.inl ⟨r, v, ok, rest, h0, (Host.Outcome.next.inj h).symm⟩))))
  · rename_i a v rest h0
    exact .inr (.inr (.inr (.inr (.inr ⟨a, v, rest, h0, (Host.Outcome.next.inj h).symm⟩))))

/-- The address of every event of a command is its base plus the number of a read. -/
theorem mem_readEvents {base : RegAddr} {idx : Nat} {answers : List (Option Byte)} {ev : ReadEvent}
    (h : ev ∈ readEvents base idx answers) :
    ∃ j, j < answers.length ∧ ev.addr = base + BitVec.ofNat 8 (idx + j) := by
  induction answers generalizing idx with
  | nil => simp [readEvents] at h
  | cons a answers ih =>
    simp only [readEvents, List.mem_cons] at h
    rcases h with rfl | h
    · exact ⟨0, by simp, by simp⟩
    · obtain ⟨j, hj, he⟩ := ih h
      exact ⟨j + 1, by simpa using hj, by rw [he]; congr 2; omega⟩

end Sys2Proof.Machine
end

