-- ==== Sys2Proof/Tests/Slice0.lean ====
section
/-! SUPPORT. The tests. Every expected value is taken from the spec: 95_test_vectors.md (the vector is named), or the
rule that is named. The last part shows, for every statement that has hypotheses, a state and operands that meet them. -/

namespace Sys2Proof.Tests

open Sys2Proof.Machine

/-! ### Small states -/

/-- A world with the given coming inputs and answers. -/
def world (inputs : List Input) (replies : List Reply) : Env := { Env.empty with inputs := inputs, replies := replies }

/-- The reset state, with answers listed. -/
def fresh (replies : List Reply) : State := State.resetWith Config.defaultParams (world [] replies)

/-- `PHASE = READY`, with the registers of V-C5: tuple V-A25, `T_RAW` V-B12, `P_RAW` V-B13, both fresh. -/
def ready (params : Params) (replies : List Reply) : State :=
  { State.resetWith params (world [] replies) with
    phase := .ready
    coef := some ⟨0x13E63#20, 0xEFE25#20, 0xF68E#16, 0x054C#16, 0xD9BC#16, 0x004D#16, 0xFAC0#16⟩
    tRaw := some 0x032656#24, pRaw := some 0xE9A9EB#24, pFresh := true, tFresh := true }

/-- `PHASE = FAILED`. -/
def failed (replies : List Reply) : State := { fresh replies with phase := .failed, res := .eTransport }

/-- The state with an act of the world outside to come. -/
def coming (input : Input) (s : State) : State := takeInput [input] s

/-- The next state, where there is one. -/
def after : Result → Option State
  | .next t => some t
  | .fault _ => none
  | .refused _ => none

/-- The image of V-A25. -/
def imageA25 : List Byte :=
  [0x13#8, 0xE6#8, 0x3E#8, 0xFE#8, 0x25#8, 0xF6#8, 0x8E#8, 0x05#8, 0x4C#8, 0xD9#8, 0xBC#8, 0x00#8, 0x4D#8, 0xFA#8,
   0xC0#8]

/-- The tuple of V-A25. -/
def tupleA25 : CoefVals := ⟨81507, -66011, -2418, 1356, -9796, 77, -1344⟩

def single32 : Params := ⟨.binary32, .separate⟩
def fused32 : Params := ⟨.binary32, .fused⟩
def single64 : Params := ⟨.binary64, .separate⟩
def fused64 : Params := ⟨.binary64, .fused⟩

/-! ### Well-formedness: each check refuses something -/

theorem test_wf_reserved_101 : (CodeWord.cmd 0b101#3).wellFormed = false := by decide
theorem test_wf_reserved_110 : (CodeWord.cmd 0b110#3).wellFormed = false := by decide
theorem test_wf_reserved_111 : (CodeWord.cmd 0b111#3).wellFormed = false := by decide
theorem test_wf_comp : (CodeWord.cmd 0b100#3).wellFormed = true := by decide
theorem test_wf_c00 : CoefVals.wellFormed ⟨524288, 0, 0, 0, 0, 0, 0⟩ = false := by decide
theorem test_wf_c10 : CoefVals.wellFormed ⟨0, 1040384, 0, 0, 0, 0, 0⟩ = false := by decide
theorem test_wf_c01 : CoefVals.wellFormed ⟨0, 0, -32769, 0, 0, 0, 0⟩ = false := by decide
theorem test_wf_c11 : CoefVals.wellFormed ⟨0, 0, 0, 32768, 0, 0, 0⟩ = false := by decide
theorem test_wf_c20 : CoefVals.wellFormed ⟨0, 0, 0, 0, -32769, 0, 0⟩ = false := by decide
theorem test_wf_c21 : CoefVals.wellFormed ⟨0, 0, 0, 0, 0, 32768, 0⟩ = false := by decide
theorem test_wf_c30 : CoefVals.wellFormed ⟨0, 0, 0, 0, 0, 0, -32769⟩ = false := by decide
theorem test_wf_bounds : CoefVals.wellFormed ⟨-524288, 524287, -32768, 32767, -32768, 32767, -32768⟩ = true := by
  decide

/-! ### Decoding: words written out from 30_encoding.md R81, R83, R86 -/

theorem test_decode_nop : decode (.cmd 0b000#3) = .ok .nop := by decide
theorem test_decode_calLoad : decode (.cmd 0b001#3) = .ok .calLoad := by decide
theorem test_decode_rdPrs : decode (.cmd 0b010#3) = .ok .rdPrs := by decide
theorem test_decode_rdTmp : decode (.cmd 0b011#3) = .ok .rdTmp := by decide
theorem test_decode_comp : decode (.cmd 0b100#3) = .ok .comp := by decide
theorem test_decode_reserved :
    decode (.cmd 0b101#3) = .error (.reservedCommand 0b101#3) ∧
    decode (.cmd 0b110#3) = .error (.reservedCommand 0b110#3) ∧
    decode (.cmd 0b111#3) = .error (.reservedCommand 0b111#3) := by decide

/-- The image of V-A9, in which every byte is its own number. -/
def imageA9 : BitVec 120 := 0x0102030405060708090A0B0C0D0E0F#120

theorem test_decode_extC00 : decode (.cal15 .c00 imageA9) = .ok (.extC00 0x01#8 0x02#8 0x03#8) := by decide
theorem test_decode_extC10 : decode (.cal15 .c10 imageA9) = .ok (.extC10 0x03#8 0x04#8 0x05#8) := by decide
theorem test_decode_extC01 : decode (.cal15 .c01 imageA9) = .ok (.extC01 0x06#8 0x07#8) := by decide
theorem test_decode_extC11 : decode (.cal15 .c11 imageA9) = .ok (.extC11 0x08#8 0x09#8) := by decide
theorem test_decode_extC20 : decode (.cal15 .c20 imageA9) = .ok (.extC20 0x0A#8 0x0B#8) := by decide
theorem test_decode_extC21 : decode (.cal15 .c21 imageA9) = .ok (.extC21 0x0C#8 0x0D#8) := by decide
theorem test_decode_extC30 : decode (.cal15 .c30 imageA9) = .ok (.extC30 0x0E#8 0x0F#8) := by decide
theorem test_decode_extPraw : decode (.raw3 .praw 0x123456#24) = .ok (.extPraw 0x12#8 0x34#8 0x56#8) := by decide
theorem test_decode_extTraw : decode (.raw3 .traw 0x123456#24) = .ok (.extTraw 0x12#8 0x34#8 0x56#8) := by decide

/-- V-A25 and its round trip (40_calibration_extractor.md R125). -/
theorem test_pack_a25 : pack tupleA25 = imageA25 ∧ coefValues (decodeImage (calImage imageA25)) = tupleA25 := by decide
/-- V-A3: the boundaries, with the shared byte `F8`. -/
theorem test_pack_a3 : pack ⟨524287, -524288, 32767, -32768, 0, -1, 1⟩ =
    [0x7F#8, 0xFF#8, 0xF8#8, 0x00#8, 0x00#8, 0x7F#8, 0xFF#8, 0x80#8, 0x00#8, 0x00#8, 0x00#8, 0xFF#8, 0xFF#8, 0x00#8,
     0x01#8] := by decide

/-! ### The commands -/

/-- V-D14. -/
theorem test_nop : after (exec .nop { failed [] with res := .eFatal }) = some { failed [] with res := .eFatal } := by
  decide

/-- V-A25: the load, from reset. -/
theorem test_calLoad : (after (exec .calLoad (fresh (imageA25.map .byte)))).map
    (fun t => (t.phase, t.res, t.coef.map coefValues, t.env.history.length)) =
    some (.ready, .ok, some tupleA25, 15) := by decide

/-- V-A41: the eighth read fails. -/
theorem test_calLoad_failed : (after (exec .calLoad (fresh ((imageA25.take 7).map .byte ++ [.failed])))).map
    (fun t => (t.phase, t.res, t.coef, t.env.history.map (·.addr))) =
    some (.failed, .eTransport, none,
      [0x13#8, 0x14#8, 0x15#8, 0x16#8, 0x17#8, 0x18#8, 0x19#8, 0x1A#8]) := by decide

/-- V-B6: byte order. -/
theorem test_rdPrs : (after (exec .rdPrs (fresh [.byte 0x12#8, .byte 0x34#8, .byte 0x56#8]))).map
    (fun t => (t.pRaw.map signedValue, t.pFresh, t.tFresh, t.res, t.env.history.map (·.addr))) =
    some (some 1193046, true, false, .ok, [0x00#8, 0x01#8, 0x02#8]) := by decide

/-- V-B31: the second read fails. -/
theorem test_rdPrs_failed : (after (exec .rdPrs (ready single32 [.byte 0xE1#8, .failed]))).map
    (fun t => (t.phase, t.res, readPRaw t, t.tFresh, t.env.history.length)) =
    some (.ready, .eTransport, none, true, 2) := by decide

/-- V-B1, through `RD_TMP`. -/
theorem test_rdTmp : (after (exec .rdTmp (fresh [.byte 0x80#8, .byte 0x00#8, .byte 0x00#8]))).map
    (fun t => (t.tRaw.map signedValue, t.pFresh, t.tFresh, t.res, t.env.history.map (·.addr))) =
    some (some (-8388608), false, true, .ok, [0x03#8, 0x04#8, 0x05#8]) := by decide

/-- V-D12. -/
theorem test_rdTmp_refused : after (exec .rdTmp (failed [.byte 0x80#8])) =
    some { failed [.byte 0x80#8] with res := .eFatal } := by decide

/-- V-C5 in both formats. The kernel computes the rationals. -/
theorem test_comp :
    (after (exec .comp (ready single32 []))).map (fun t => (t.pressure, t.pressureValid, t.pFresh, t.tFresh)) =
      some (some (.b32 0x48196925#32), true, false, false) ∧
    (after (exec .comp (ready single64 []))).map (·.pressure) =
      some (some (.b64 0x41032D24AB2361E3#64)) := by decide +kernel

/-- V-D7. -/
theorem test_comp_stale : after (exec .comp { ready single32 [] with tFresh := false }) =
    some { ready single32 [] with tFresh := false, res := .eStale } := by decide

/-! ### The extraction functions -/

/-- The value an extraction function gives. -/
def given (i : Instr) : Option (Option Int) := (after (exec i State.reset)).map (·.env.extOut)

/-- V-A5, V-A24. -/
theorem test_extC00 : given (.extC00 0x00#8 0x00#8 0xA5#8) = some (some 10) ∧
    given (.extC00 0x80#8 0x00#8 0x07#8) = some (some (-524288)) := by decide
/-- V-A6, V-A4. -/
theorem test_extC10 : given (.extC10 0x5A#8 0x00#8 0x00#8) = some (some (-393216)) ∧
    given (.extC10 0x07#8 0xFF#8 0xFF#8) = some (some 524287) := by decide
/-- V-A9, V-A4. -/
theorem test_extC01 : given (.extC01 0x06#8 0x07#8) = some (some 1543) ∧
    given (.extC01 0x80#8 0x00#8) = some (some (-32768)) := by decide
/-- V-A25. -/
theorem test_extC11 : given (.extC11 0x05#8 0x4C#8) = some (some 1356) := by decide
/-- V-A25. -/
theorem test_extC20 : given (.extC20 0xD9#8 0xBC#8) = some (some (-9796)) := by decide
/-- V-A4. -/
theorem test_extC21 : given (.extC21 0x00#8 0x80#8) = some (some 128) := by decide
/-- V-A25. -/
theorem test_extC30 : given (.extC30 0xFA#8 0xC0#8) = some (some (-1344)) := by decide
/-- V-B1, V-B2 (the source's scenario S5). -/
theorem test_extPraw : given (.extPraw 0x80#8 0x00#8 0x00#8) = some (some (-8388608)) ∧
    given (.extPraw 0x7F#8 0xFF#8 0xFF#8) = some (some 8388607) := by decide
/-- V-B13. -/
theorem test_extTraw : given (.extTraw 0xE9#8 0xA9#8 0xEB#8) = some (some (-1463829)) := by decide

/-! ### The function `comp` -/

/-- V-C7 and V-C8: the vectors on which `MAC_MODE` shows, in binary32 and in binary64. -/
theorem test_comp_mac_mode :
    (comp single32 ⟨524287, 524287, 32767, 32767, 32767, 32767, 32767⟩ 8388607 8388607).toBits .binary32 =
      .b32 0x4C6FEB43#32 ∧
    (comp fused32 ⟨524287, 524287, 32767, 32767, 32767, 32767, 32767⟩ 8388607 8388607).toBits .binary32 =
      .b32 0x4C6FEB44#32 ∧
    (comp single64 ⟨-524288, -524288, -32768, -32768, -32768, -32768, -32768⟩ (-8388608) (-8388608)).toBits .binary64
      = .b64 0x41876D786C50930E#64 ∧
    (comp fused64 ⟨-524288, -524288, -32768, -32768, -32768, -32768, -32768⟩ (-8388608) (-8388608)).toBits .binary64
      = .b64 0x41876D786C50930D#64 := by decide +kernel

/-- V-C18: `+0`, through a `-0`; and V-C19: the seven weights. -/
theorem test_comp_zero_and_weights : comp single32 ⟨0, 0, 0, 0, 0, 0, 0⟩ (-5) (-7) = .zero false ∧
    (traceSeparate .binary32 ⟨0, 0, 0, 0, 0, 0, 0⟩ (-5) (-7)).a1 = .zero true ∧
    (comp fused32 ⟨2, 3, 5, 7, 11, 13, 17⟩ 1572864 2080768).toBits .binary32 = .b32 0x43C88000#32 := by decide +kernel

/-! ### The step and the world outside -/

/-- V-D15: a reserved code in `FAILED`. -/
theorem test_step_reserved : (after (step (coming (.present (.cmd 0b111#3)) (failed [])))).map (·.res) =
    some .eIllCmd := by decide

/-- 43_control.md R190: with nothing presented the block waits. -/
theorem test_step_idle : after (step State.reset) = some State.reset := by decide

/-- 10_state.md R38: reset from a used state. -/
theorem test_step_reset : after (step (coming .reset (ready single32 []))) = some State.reset := by decide

/-- 30_encoding.md R91, `INIT` and `MEASURE`; 95_test_vectors.md P1 and P3 are such runs. The two lists present the
commands of P1 in its order. -/
theorem test_pseudo_operations :
    (initInputs ++ measureInputs).filterMap (fun x => match x with | .present w => some w | _ => none) =
      [.cmd 0b001#3, .cmd 0b010#3, .cmd 0b011#3, .cmd 0b100#3] := by decide

/-- 10_state.md R24: a coefficient is not to be seen before `READY`; V-A25 after it. -/
theorem test_observe : observe (.coef .c00) State.reset = .error .noValue ∧
    observe (.coef .c10) (ready single32 []) = .ok (.int (-66011)) ∧
    observe .pressure (ready single32 []) = .error .noValue := ⟨rfl, by rfl, rfl⟩

/-! ### What meets the hypotheses of the statements -/

theorem test_witness_DecodeOfEncode : (Instr.extC30 0xFF#8 0xFF#8).wellFormed = true := by decide

theorem test_witness_ImagesAndTuplesCorrespond :
    ((fresh (imageA25.map .byte)).phase = .unloaded ∧ imageA25.length = 15 ∧
      (fresh (imageA25.map .byte)).env.replies = imageA25.map Reply.byte ++ []) ∧
    coefValues (decodeImage (2 ^ 120 - 1)) = coefValues (decodeImage (2 ^ 120 - 1)) ∧
    CoefVals.wellFormed ⟨-524288, 524287, -32768, 32767, -32768, 32767, -32768⟩ = true ∧
    calImage imageA25 = calImage imageA25 := ⟨⟨rfl, rfl, rfl⟩, rfl, by decide, rfl⟩

theorem test_witness_PackThenExtractIsIdentity :
    CoefVals.wellFormed ⟨524287, -524288, 32767, -32768, 0, -1, 1⟩ = true := by decide

theorem test_witness_SignExtensionInAContainer : (0 < 1 ∧ 1 < 2) ∧ 0 < 24 ∧ 24 < 32 := by decide

theorem test_witness_SignExtensionLaw : 0 < 1 ∧ (0#1).toNat < 2 ^ (1 - 1) ∧ ¬ (1#1).toNat < 2 ^ (1 - 1) := by decide

theorem test_witness_StepRunsThePresentedInstruction :
    ((coming (.present (.cmd 0b100#3)) State.reset).env.inputs = .present (.cmd 0b100#3) :: [] ∧
      decode (.cmd 0b100#3) = .ok .comp) ∧
    State.reset.env.inputs = [] ∧ decodeTableWord 8 0b100 = some .comp ∧
    decodeTableWord 120 0x0102030405060708090A0B0C0D0E0F = some (.extC00 0x01#8 0x02#8 0x03#8) ∧
    decodeTableWord 24 0x123456 = some (.extPraw 0x12#8 0x34#8 0x56#8) := by decide

theorem test_witness_ReservedCodeIsRefused :
    (coming (.present (.cmd 0b101#3)) State.reset).env.inputs = .present (.cmd 0b101#3) :: [] ∧
    (coming (.present (.cmd 0b110#3)) State.reset).env.inputs = .present (.cmd 0b110#3) :: [] ∧
    (coming (.present (.cmd 0b111#3)) State.reset).env.inputs = .present (.cmd 0b111#3) :: [] := by decide

theorem test_witness_ResetValues :
    (coming .reset (ready single32 [])).env.inputs = .reset :: [] := by decide

theorem test_witness_ResetAbandonsARunningCommand :
    (refusalCode Reader.calLoad.instr (fresh ((imageA25.take 14).map .byte ++ [.reset])) = none ∧
      (imageA25.take 14).length < Reader.calLoad.count ∧
      (fresh ((imageA25.take 14).map .byte ++ [.reset])).env.replies =
        (imageA25.take 14).map Reply.byte ++ .reset :: []) ∧
    refusalCode Reader.rdPrs.instr (fresh [.reset]) = none ∧ ([] : List Byte).length < Reader.rdPrs.count ∧
    (fresh [.reset]).env.replies = ([] : List Byte).map Reply.byte ++ .reset :: [] ∧
    refusalCode Reader.rdTmp.instr (ready single32 [.reset]) = none := by decide

theorem test_witness_UnansweredReadIsStuck :
    (refusalCode Reader.calLoad.instr (fresh ((imageA25.take 14).map .byte ++ [.never])) = none ∧
      (imageA25.take 14).length < Reader.calLoad.count ∧
      (fresh ((imageA25.take 14).map .byte ++ [.never])).env.replies =
        (imageA25.take 14).map Reply.byte ++ .never :: []) ∧
    refusalCode Reader.rdPrs.instr (fresh [.never]) = none ∧
    refusalCode Reader.rdTmp.instr (ready single32 [.never]) = none ∧
    (fresh [.never]).env.replies = ([] : List Byte).map Reply.byte ++ .never :: [] := by decide

theorem test_witness_HostWriteLeavesTheBlock :
    (coming (.configWrite .prsCfg 0x26#8 true) State.reset).env.inputs = .configWrite .prsCfg 0x26#8 true :: [] ∧
    (coming (.configWrite .shiftCfg 0x04#8 false) State.reset).env.inputs =
      .configWrite .shiftCfg 0x04#8 false :: [] ∧ (0 : Nat) ≠ ConfigReg.prsCfg.addr.toNat ∧
    Memory.wf (coming (.configWrite .prsCfg 0x26#8 true) State.reset).env.device = true := by decide

theorem test_witness_DeviceChangeLeavesTheBlock :
    (coming (.deviceChanges 0xFF#8 0x01#8) State.reset).env.inputs = .deviceChanges 0xFF#8 0x01#8 :: [] ∧
    (0 : Nat) ≠ (0xFF#8).toNat := by decide

theorem test_witness_NopChangesNothing :
    (coming (.present (.cmd 0b000#3)) (failed [])).env.inputs = .present (.cmd 0b000#3) :: [] := by decide

theorem test_witness_CalLoadLoadsTheImage : (failed []).phase = .failed ∧ (ready single32 []).phase = .ready ∧
    (fresh (imageA25.map .byte)).phase = .unloaded ∧
    (fresh (imageA25.map .byte)).env.replies =
      [0x13#8, 0xE6#8, 0x3E#8, 0xFE#8, 0x25#8, 0xF6#8, 0x8E#8, 0x05#8, 0x4C#8, 0xD9#8, 0xBC#8, 0x00#8, 0x4D#8, 0xFA#8,
        0xC0#8].map Reply.byte ++ [] := by decide

theorem test_witness_FailedLoadIsFatal :
    ((fresh [.failed]).phase = .unloaded ∧ ([] : List Byte).length < 15 ∧
      (fresh [.failed]).env.replies = ([] : List Byte).map Reply.byte ++ .failed :: []) ∧
    (imageA25.take 14).length < 15 ∧
    (fresh ((imageA25.take 14).map .byte ++ [.failed])).env.replies =
      (imageA25.take 14).map Reply.byte ++ .failed :: [] := by decide

theorem test_witness_SixteenBitExtractions :
    Instr.extC30 0x80#8 0x00#8 = .extC30 0x80#8 0x00#8 ∧ Instr.extC01 0x7F#8 0xFF#8 = .extC01 0x7F#8 0xFF#8 := by decide

theorem test_witness_SharedByteNibblesAreIndependent :
    (imageA25.drop 3).length = 12 ∧
    ((0xA5#8) ≠ 0x55#8 ∧ (splitShared 0xA5#8).2 = (splitShared 0x55#8).2) ∧
    (0xA5#8) ≠ 0xAA#8 ∧ (splitShared 0xA5#8).1 = (splitShared 0xAA#8).1 := by decide

theorem test_witness_LoadAgreesWithExtractions :
    (fresh (imageA25.map .byte)).phase = .unloaded ∧ imageA25.length = 15 ∧
    (fresh (imageA25.map .byte)).env.replies = imageA25.map Reply.byte ++ [] := by decide

theorem test_witness_RepeatedLoadGivesTheSameCoefficients :
    let s := fresh (List.replicate 15 Reply.content ++ [])
    let s' := fresh (List.replicate 15 Reply.content ++ [.failed])
    s.phase = .unloaded ∧ s'.phase = .unloaded ∧ s.env.device = s'.env.device ∧
    s.env.replies = List.replicate 15 Reply.content ++ [] ∧
    s'.env.replies = List.replicate 15 Reply.content ++ [.failed] := by decide

theorem test_witness_PressureReadDecodes : (failed []).phase = .failed ∧
    (fresh [.byte 0x80#8, .byte 0x00#8, .byte 0x00#8]).phase = .unloaded ∧
    (fresh [.byte 0x80#8, .byte 0x00#8, .byte 0x00#8]).env.replies =
      [0x80#8, 0x00#8, 0x00#8].map Reply.byte ++ [] ∧
    (ready single32 [.byte 0x7F#8, .byte 0xFF#8, .byte 0xFF#8]).phase = .ready ∧
    (ready single32 [.byte 0x7F#8, .byte 0xFF#8, .byte 0xFF#8]).env.replies =
      [0x7F#8, 0xFF#8, 0xFF#8].map Reply.byte ++ [] := by decide

theorem test_witness_TemperatureReadDecodes : (failed []).phase = .failed ∧
    (fresh [.byte 0x7F#8, .byte 0xFF#8, .byte 0xFF#8]).phase = .unloaded ∧
    (fresh [.byte 0x7F#8, .byte 0xFF#8, .byte 0xFF#8]).env.replies =
      [0x7F#8, 0xFF#8, 0xFF#8].map Reply.byte ++ [] ∧
    (ready single64 [.byte 0x80#8, .byte 0x00#8, .byte 0x00#8]).phase = .ready ∧
    (ready single64 [.byte 0x80#8, .byte 0x00#8, .byte 0x00#8]).env.replies =
      [0x80#8, 0x00#8, 0x00#8].map Reply.byte ++ [] := by decide

theorem test_witness_FailedSampleReadIsRetryable :
    ((fresh [.failed]).phase = .unloaded ∧ ([] : List Byte).length < 3 ∧
      (fresh [.failed]).env.replies = ([] : List Byte).map Reply.byte ++ .failed :: []) ∧
    (ready single32 [.byte 0xE1#8, .byte 0x7B#8, .failed]).phase = .ready ∧ [0xE1#8, 0x7B#8].length < 3 ∧
    (ready single32 [.byte 0xE1#8, .byte 0x7B#8, .failed]).env.replies =
      [0xE1#8, 0x7B#8].map Reply.byte ++ .failed :: [] := by decide

theorem test_witness_RawExtractions : Instr.extPraw 0x80#8 0x00#8 0x00#8 = .extPraw 0x80#8 0x00#8 0x00#8 ∧
    Instr.extTraw 0x7F#8 0xFF#8 0xFF#8 = .extTraw 0x7F#8 0xFF#8 0xFF#8 := by decide

theorem test_witness_CompStoresThePressure : (failed []).phase = .failed ∧ (fresh []).phase = .unloaded ∧
    ({ ready single32 [] with pFresh := false }.phase = .ready ∧
      { ready single32 [] with pFresh := false }.pFresh = false) ∧
    (let s := ready fused64 []
     s.phase = .ready ∧ s.pFresh = true ∧ s.tFresh = true ∧ s.tRaw = some 0x032656#24 ∧ s.pRaw = some 0xE9A9EB#24 ∧
     s.coef = some ⟨0x13E63#20, 0xEFE25#20, 0xF68E#16, 0x054C#16, 0xD9BC#16, 0x004D#16, 0xFAC0#16⟩) := by decide

theorem test_witness_CompIsAFunctionOfItsArguments :
    let s := ready single32 []
    let s' := ready single32 [.failed]
    (∃ t t', exec .comp s = .next t ∧ exec .comp s' = .next t' ∧ t.res = .ok ∧ t'.res = .ok) ∧
    s.params = s'.params ∧ s.coef = s'.coef ∧ s.tRaw = s'.tRaw ∧ s.pRaw = s'.pRaw :=
  ⟨⟨_, _, rfl, rfl, rfl, rfl⟩, rfl, rfl, rfl, rfl⟩

/-- One; the half-way integer `2^24 + 1` of binary32; the overflow `2^128`; the least subnormal halved. -/
theorem test_witness_RoundingIsToNearestEven :
    ((1 : ℚ) ≠ 0 ∧ (2 : ℚ) ^ (0 : Int) ≤ |1| ∧ |(1 : ℚ)| < (2 : ℚ) ^ ((0 : Int) + 1)) ∧
    ((16777217 : ℚ) ≠ 0 ∧ (2 : ℚ) ^ (24 : Int) ≤ |16777217| ∧ |(16777217 : ℚ)| < (2 : ℚ) ^ ((24 : Int) + 1)) ∧
    ((2 : ℚ) ^ (128 : Int) ≠ 0 ∧ (2 : ℚ) ^ (128 : Int) ≤ |(2 : ℚ) ^ (128 : Int)| ∧
      |(2 : ℚ) ^ (128 : Int)| < (2 : ℚ) ^ ((128 : Int) + 1)) ∧
    ((2 : ℚ) ^ (-150 : Int) ≠ 0 ∧ (2 : ℚ) ^ (-150 : Int) ≤ |(2 : ℚ) ^ (-150 : Int)| ∧
      |(2 : ℚ) ^ (-150 : Int)| < (2 : ℚ) ^ ((-150 : Int) + 1)) := by
  norm_num

/-- Ordinary numbers, and the operands of an exact zero: `x + (-x)`, `(-0) + (-0)`, `0 * (-1) + (-0)`. -/
theorem test_witness_OperationsRoundOnce :
    FiniteValue .binary32 (.num 1) 1 ∧ FiniteValue .binary32 (.num (-1)) (-1) ∧
    FiniteValue .binary32 (.zero true) 0 ∧ FiniteValue .binary32 (.zero false) 0 ∧ (1 : ℚ) ≠ 0 := by
  refine ⟨.inr ⟨by norm_num, ⟨?_, 1, 0, ?_, ?_, ?_⟩, rfl⟩, .inr ⟨by norm_num, ⟨?_, -1, 0, ?_, ?_, ?_⟩, rfl⟩,
    .inl ⟨rfl, _, rfl⟩, .inl ⟨rfl, _, rfl⟩, one_ne_zero⟩ <;> norm_num [emax, emin, prec]

theorem test_witness_ConversionIsExact : |(2 ^ 24 : Int)| ≤ 2 ^ 24 ∧ |(-(2 ^ 24) : Int)| ≤ 2 ^ 24 := by decide

theorem test_witness_TemperatureScalingIsExact : signedValue (1#24) ≠ 0 ∧ signedValue (0x800000#24) ≠ 0 := by decide

theorem test_witness_PressureScalingRange : signedValue (1#24) ≠ 0 ∧ signedValue (0x800000#24) ≠ 0 := by decide

theorem test_witness_LinearTermIsTheIdentityAtKP : |(1040384 : Int)| ≤ 2 ^ 24 ∧ |(-524288 : Int)| ≤ 2 ^ 24 := by decide

theorem test_witness_OnlyC00SurvivesAtZero :
    FVal.zero false ∈
      [(traceSeparate .binary32 ⟨0, 0, 0, 0, 0, 0, 0⟩ 0 0).a1, (traceFused .binary32 ⟨0, 0, 0, 0, 0, 0, 0⟩ 0 0).d3] := by
  decide +kernel

theorem test_witness_NoValueOfThePipelineOverflows :
    FVal.zero false ∈ (traceSeparate .binary32 ⟨0, 0, 0, 0, 0, 0, 0⟩ 0 0).all ∧
    FVal.zero false ∈ (traceFused .binary64 ⟨0, 0, 0, 0, 0, 0, 0⟩ 0 0).all := by decide +kernel

theorem test_witness_ResultIsNeverNegativeZero :
    coefValues ⟨0#20, 0#20, 0#16, 0#16, 0#16, 0#16, 0#16⟩ = ⟨0, 0, 0, 0, 0, 0, 0⟩ := by decide

theorem test_witness_BitPatternsStandForTheirValues :
    ((1 : ℚ) ≠ 0 ∧ Representable .binary32 1 ∧ Representable .binary64 1) ∧
    (FloatBits.b32 0x00000001#32).value ≠ .nan ∧ (FloatBits.b32 0x7F800000#32).value ≠ .nan ∧
    (FloatBits.b64 0x8000000000000000#64).value ≠ .nan ∧ (FloatBits.b64 0x7FEFFFFFFFFFFFFF#64).value ≠ .nan := by
  refine ⟨⟨one_ne_zero, ⟨?_, 1, 0, ?_, ?_, ?_⟩, ⟨?_, 1, 0, ?_, ?_, ?_⟩⟩, by decide +kernel⟩ <;>
    first | (norm_num [emax, emin, prec]; done) | exact one_lt_zpow₀ (by norm_num) (by decide)

theorem test_witness_AcceptanceMatrix :
    (refusalCode .calLoad (ready single32 []) = some .eLocked ∧ refusalCode .calLoad (failed []) = some .eFatal ∧
      refusalCode .rdPrs (failed []) = some .eFatal ∧ refusalCode .rdTmp (failed []) = some .eFatal ∧
      refusalCode .comp (fresh []) = some .eNoCal ∧ refusalCode .comp (failed []) = some .eFatal ∧
      refusalCode .comp { ready single32 [] with tFresh := false } = some .eStale) ∧
    (isCommand .comp = true ∧ refusalCode .comp (ready single32 []) = none ∧
      (∃ t, exec .comp (ready single32 []) = .next t) ∧ noResetListed (ready single32 [])) ∧
    (isCommand .nop = true ∧ refusalCode .nop (failed []) = none ∧ (∃ t, exec .nop (failed []) = .next t) ∧
      noResetListed (failed [])) ∧
    4 < (0b101#3).toNat ∧ 4 < (0b111#3).toNat :=
  ⟨by decide, ⟨rfl, rfl, ⟨_, rfl⟩, by simp [noResetListed, State.resetWith, ready, world]⟩,
    ⟨rfl, rfl, ⟨_, rfl⟩, by simp [noResetListed, State.resetWith, failed, fresh, world]⟩, by decide, by decide⟩

theorem test_witness_FirstConditionIsReported :
    4 < (0b110#3).toNat ∧ (failed []).phase = .failed ∧ (ready single32 []).phase = .ready ∧
    (fresh []).phase = .unloaded ∧
    ({ ready single32 [] with tFresh := false }.phase = .ready ∧
      { ready single32 [] with tFresh := false }.tFresh = false) ∧
    (refusalCode Reader.rdTmp.instr (fresh [.byte 0x01#8, .failed, .failed]) = none ∧
      [0x01#8].length < Reader.rdTmp.count ∧
      (fresh [.byte 0x01#8, .failed, .failed]).env.replies = [0x01#8].map Reply.byte ++ .failed :: [.failed]) := by
  decide

theorem test_witness_PhaseTransitions :
    (∃ t, step (coming .reset (failed [])) = .next t) ∧
    (coming .reset (failed [])).env.inputs = .reset :: [] ∧
    (let s := coming (.present (.cmd 0b001#3)) (fresh (imageA25.map .byte))
     (∃ t, step s = .next t) ∧ nextIsNotReset s ∧ noResetListed s ∧ s.phase = .unloaded ∧
       s.env.inputs = .present (.cmd 0b001#3) :: []) ∧
    (let s := coming (.present (.cmd 0b001#3)) (ready single32 [])
     (∃ t, step s = .next t) ∧ nextIsNotReset s ∧ noResetListed s ∧ s.phase = .ready) ∧
    (let s := coming (.present (.cmd 0b001#3)) (failed [])
     (∃ t, step s = .next t) ∧ nextIsNotReset s ∧ noResetListed s ∧ s.phase = .failed) := by
  refine ⟨⟨_, rfl⟩, rfl, ⟨⟨_, rfl⟩, ?_, ?_, rfl, rfl⟩, ⟨⟨_, rfl⟩, ?_, ?_, rfl⟩, ⟨⟨_, rfl⟩, ?_, ?_, rfl⟩⟩ <;>
    simp [nextIsNotReset, noResetListed, State.resetWith, imageA25, coming, takeInput, mapEnv, fresh, ready, failed, world]

theorem test_witness_CoefficientsAreWrittenOnce :
    let s := coming (.present (.cmd 0b001#3)) (fresh (imageA25.map .byte))
    (∃ t, step s = .next t) ∧ nextIsNotReset s ∧ noResetListed s := by
  refine ⟨⟨_, rfl⟩, ?_, ?_⟩ <;>
    simp [nextIsNotReset, noResetListed, State.resetWith, imageA25, coming, takeInput, mapEnv, fresh, world]

/-- A read that completes, one that fails, a `COMP`, and a refused `COMP`, for the statements whose hypotheses are an
`exec` that gives a next state and no reset among the answers. -/
theorem test_witness_FreshnessFlags :
    (∃ t, exec .rdPrs (fresh [.byte 0x00#8, .byte 0x00#8, .byte 0x07#8]) = .next t ∧ t.res = .ok) ∧
    noResetListed (fresh [.byte 0x00#8, .byte 0x00#8, .byte 0x07#8]) ∧
    (∃ t, exec .rdTmp (ready single32 [.byte 0x00#8, .failed]) = .next t ∧ t.res = .eTransport) ∧
    noResetListed (ready single32 [.byte 0x00#8, .failed]) ∧
    (∃ t, exec .comp (ready single32 []) = .next t ∧ t.res = .ok) ∧ noResetListed (ready single32 []) := by
  refine ⟨⟨_, rfl, rfl⟩, ?_, ⟨_, rfl, rfl⟩, ?_, ⟨_, rfl, rfl⟩, ?_⟩ <;>
    simp [noResetListed, State.resetWith, fresh, ready, world]

theorem test_witness_PressureIsKeptUntilTheNextResult :
    (∃ t, exec .comp (ready single32 []) = .next t) ∧ noResetListed (ready single32 []) ∧
    (∃ t, exec .nop (fresh []) = .next t) ∧ noResetListed (fresh []) := by
  refine ⟨⟨_, rfl⟩, ?_, ⟨_, rfl⟩, ?_⟩ <;> simp [noResetListed, State.resetWith, fresh, ready, world]

theorem test_witness_FramesOfTheInstructions :
    noResetListed (fresh (imageA25.map .byte)) ∧ (∃ t, exec .calLoad (fresh (imageA25.map .byte)) = .next t) ∧
    (∃ t, exec .rdPrs (fresh (imageA25.map .byte)) = .next t) ∧
    (∃ t, exec .rdTmp (fresh (imageA25.map .byte)) = .next t) ∧
    noResetListed (ready single32 []) ∧ (∃ t, exec .comp (ready single32 []) = .next t) ∧
    (∃ t, exec .nop (ready single32 []) = .next t) ∧
    (isCommand (.extC00 0x01#8 0x02#8 0x03#8) = false ∧
      ∃ t, exec (.extC00 0x01#8 0x02#8 0x03#8) (ready single32 []) = .next t) := by
  refine ⟨?_, ⟨_, rfl⟩, ⟨_, rfl⟩, ⟨_, rfl⟩, ?_, ⟨_, rfl⟩, ⟨_, rfl⟩, rfl, ⟨_, rfl⟩⟩ <;>
    simp [noResetListed, State.resetWith, fresh, ready, world, imageA25]

theorem test_witness_ExceptionsArePrecise :
    (∃ t, exec .calLoad (fresh [.failed]) = .next t ∧ t.res ≠ .ok) ∧ noResetListed (fresh [.failed]) ∧
    (∃ t, exec .comp (fresh []) = .next t ∧ t.res ≠ .ok) ∧ noResetListed (fresh []) := by
  refine ⟨⟨_, rfl, by decide⟩, ?_, ⟨_, rfl, by decide⟩, ?_⟩ <;> simp [noResetListed, State.resetWith, fresh, world]

theorem test_witness_EventSequence :
    ((∃ t, exec Reader.calLoad.instr (fresh (imageA25.map .byte)) = .next t) ∧
      noResetListed (fresh (imageA25.map .byte)) ∧
      refusalCode Reader.calLoad.instr (fresh (imageA25.map .byte)) = none) ∧
    ((∃ t, exec Reader.rdPrs.instr (fresh [.failed]) = .next t) ∧ noResetListed (fresh [.failed]) ∧
      refusalCode Reader.rdPrs.instr (fresh [.failed]) = none) ∧
    (∃ t, exec .rdTmp (failed []) = .next t) ∧ refusalCode .rdTmp (failed []) ≠ none ∧
    ∃ t, exec .comp (ready single32 []) = .next t := by
  refine ⟨⟨⟨_, rfl⟩, ?_, rfl⟩, ⟨⟨_, rfl⟩, ?_, rfl⟩, ⟨_, rfl⟩, by decide, _, rfl⟩ <;>
    simp [noResetListed, State.resetWith, fresh, world, imageA25]

/-- The greatest address formed is 0x21. -/
theorem test_witness_AddressesFormed :
    (after (exec .calLoad (fresh (imageA25.map .byte)))).map (fun t => t.env.history.getLast?.map (·.addr)) =
      some (some 0x21#8) := by decide

theorem test_witness_NoInstructionWritesTheDevice : ∃ t, exec .rdPrs (fresh [.reset]) = .next t := ⟨_, rfl⟩

theorem test_witness_ParametersNeverChange : ∃ t, step (coming .reset (ready fused64 [])) = .next t := ⟨_, rfl⟩

theorem test_witness_ResultCodeIsOverwritten :
    isCommand .rdPrs = true ∧ Instr.rdPrs ≠ .nop ∧ ∃ t, exec .nop (failed []) = .next t :=
  ⟨rfl, by decide, _, rfl⟩

theorem test_witness_ResultCodesAreDistinct : resBits .ok = resBits .ok := rfl

theorem test_witness_GuardedOutputs : (fresh []).phase ≠ .ready ∧ (fresh []).pFresh = false ∧
    (fresh []).tFresh = false ∧ (fresh []).pressureValid = false ∧
    (let s := { ready single32 [] with pressure := some (.b32 0#32), pressureValid := true }
     Good s = true ∧ s.phase = .ready ∧ s.pFresh = true ∧ s.tFresh = true ∧ s.pressureValid = true) := by decide

theorem test_witness_ResetIsGood : Memory.wf Env.empty.device = true ∧ Memory.wf [(0x13, 0x01#8), (0xFF, 0x02#8)] = true ∧
    Memory.wf [(0x14, 0x01#8), (0x13, 0x02#8)] = false ∧ Memory.wf [(256, 0x01#8)] = false := by decide

theorem test_witness_StepKeepsGood : Good (coming (.present (.cmd 0b100#3)) (ready single32 [])) = true ∧
    ∃ t, step (coming (.present (.cmd 0b100#3)) (ready single32 [])) = .next t := ⟨by decide, _, rfl⟩

theorem test_witness_GoodStatesStopOnlyAtTheTransport :
    Good (coming (.present (.cmd 0b001#3)) (fresh [.never])) = true ∧
    step (coming (.present (.cmd 0b001#3)) (fresh [.never])) = .fault .transportNeverAnswers := ⟨by decide, rfl⟩

theorem test_witness_EveryInstructionRunsToItsEnd :
    everyReadAnswered (fresh [.failed]) ∧ Good (fresh [.failed]) = true ∧ Instr.calLoad ≠ .comp := by
  refine ⟨?_, by decide, by decide⟩
  simp [everyReadAnswered, State.resetWith, fresh, world]

end Sys2Proof.Tests
end

section
/-! PROOFS of the statements about the block's state (10_state.md): reset values, parameters, coefficient registers,
freshness flags and the result code. -/

namespace Sys2Proof.Machine

/-! ### The exception, whichever command raises it -/

@[simp] theorem raiseTransport_params (who : Reader) (s : State) : (raiseTransport who s).params = s.params := by
  cases who <;> rfl

@[simp] theorem raiseTransport_coef (who : Reader) (s : State) : (raiseTransport who s).coef = s.coef := by
  cases who <;> rfl

@[simp] theorem raiseTransport_res (who : Reader) (s : State) : (raiseTransport who s).res = .eTransport := by
  cases who <;> rfl

/-- Only the failed read of the pressure clears `P_FRESH` (60_exceptions.md R213). -/
theorem raiseTransport_pFresh (who : Reader) (s : State) :
    (raiseTransport who s).pFresh = if who.instr = .rdPrs then false else s.pFresh := by
  cases who <;> rfl

/-- Only the failed read of the temperature clears `T_FRESH` (60_exceptions.md R213). -/
theorem raiseTransport_tFresh (who : Reader) (s : State) :
    (raiseTransport who s).tFresh = if who.instr = .rdTmp then false else s.tFresh := by
  cases who <;> rfl

/-! ### What a step does to the block -/

theorem sameBlock_hostWrite (reg : ConfigReg) (v : Byte) (ok : Bool) (rest : List Input) (s : State) :
    sameBlock s (hostWrite reg v ok (takeInput rest s)) := by
  simp [sameBlock, hostWrite]

theorem sameBlock_deviceChange (addr : RegAddr) (v : Byte) (rest : List Input) (s : State) :
    sameBlock s (deviceChange addr v (takeInput rest s)) := by
  simp [sameBlock, deviceChange]

/-- A step leaves the block as it is, resets it, refuses a reserved code, or runs the instruction presented. -/
theorem step_block_cases {s t : State} (h : step s = .next t) :
    sameBlock s t ∨
    (∃ rest, s.env.inputs = .reset :: rest ∧ t = resetBlock (takeInput rest s)) ∨
    (∃ rest, t = refuse .eIllCmd (takeInput rest s)) ∨
    (∃ w rest i, s.env.inputs = .present w :: rest ∧ decode w = .ok i ∧ Effect i (takeInput rest s) t) := by
  rcases step_cases h with ⟨-, rfl⟩ | hrun | ⟨w, rest, -, -, rfl⟩ | hreset | ⟨r, v, ok, rest, -, rfl⟩ |
    ⟨a, v, rest, -, rfl⟩
  · exact .inl (by simp [sameBlock])
  · exact .inr (.inr (.inr hrun))
  · exact .inr (.inr (.inl ⟨rest, rfl⟩))
  · exact .inr (.inl hreset)
  · exact .inl (sameBlock_hostWrite r v ok rest s)
  · exact .inl (sameBlock_deviceChange a v rest s)

/-! ### Reset -/

theorem step_reset {s : State} {rest : List Input} (h : s.env.inputs = .reset :: rest) :
    step s = .next (resetBlock (takeInput rest s)) := by
  simp [step, h]

/-- Settles O10: the step of the reset input is `resetBlock`, and `State.reset` is a reset state. -/
theorem resetValues : Obligations.ResetValues := by
  unfold Obligations.ResetValues
  constructor
  · intro s rest h
    exact ⟨_, step_reset h, by simp⟩
  · simp [State.reset]

/-! ### The parameters -/

theorem Effect.params_eq {i : Instr} {s t : State} (h : Effect i s t) : t.params = s.params := by
  cases h <;> simp

/-- Settles O50, by the cases of a step. -/
theorem parametersNeverChange : Obligations.ParametersNeverChange := by
  unfold Obligations.ParametersNeverChange
  intro s t h
  rcases step_block_cases h with ⟨hparams, -⟩ | ⟨rest, -, rfl⟩ | ⟨rest, rfl⟩ | ⟨w, rest, i, -, -, hrun⟩
  · exact hparams
  · simp
  · simp
  · simpa using hrun.params_eq

/-! ### The coefficient registers -/

/-- Short of a reset, the one instruction that writes the coefficients is a `CAL_LOAD` that loads them. -/
theorem Effect.coef_cases {i : Instr} {s t : State} (h : Effect i s t) (hr : noResetListed s) :
    t.coef = s.coef ∨
      (i = .calLoad ∧ s.phase = .unloaded ∧ t.coef.isSome = true ∧ t.phase = .ready ∧ t.res = .ok) := by
  cases h with
  | loaded _ _ hp => exact .inr ⟨rfl, hp, by simp⟩
  | readReset _ _ _ hm => exact absurd hm hr
  | _ => simp

/-- Settles O42: the instruction presented is that `CAL_LOAD`, whose one word is `001`; no other step writes the
coefficients. -/
theorem coefficientsAreWrittenOnce : Obligations.CoefficientsAreWrittenOnce := by
  unfold Obligations.CoefficientsAreWrittenOnce
  intro s t h hnr hr
  rcases step_block_cases h with ⟨-, -, hcoef, -⟩ | ⟨rest, hin, -⟩ | ⟨rest, rfl⟩ | ⟨w, rest, i, hin, hw, hrun⟩
  · exact .inl hcoef
  · exact absurd hin (hnr rest)
  · exact .inl (by simp)
  · rcases hrun.coef_cases hr with hcoef | ⟨rfl, hp, hloaded⟩
    · exact .inl (by simpa using hcoef)
    · rw [decode_calLoad hw] at hin
      exact .inr ⟨hp, ⟨rest, hin⟩, hloaded⟩

/-! ### The freshness flags -/

/-- The value of a freshness flag after an instruction `i` that leaves `code` in `RES`, where `read` is the read of its
sample (10_state.md R26). -/
def freshAfter (read i : Instr) (code : ResultCode) (flag : Bool) : Bool :=
  if i = read ∧ code = .ok then true
  else if i = read ∧ code = .eTransport then false
  else if i = .comp ∧ code = .ok then false
  else flag

theorem freshAfter_ok (read i : Instr) (flag : Bool) :
    freshAfter read i .ok flag = if i = read then true else if i = .comp then false else flag := by
  simp [freshAfter]

theorem freshAfter_eTransport (read i : Instr) (flag : Bool) :
    freshAfter read i .eTransport flag = if i = read then false else flag := by
  simp [freshAfter]

theorem freshAfter_refused {code : ResultCode} (read i : Instr) (flag : Bool) (hok : code ≠ .ok)
    (htr : code ≠ .eTransport) : freshAfter read i code flag = flag := by
  simp [freshAfter, hok, htr]

theorem freshAfter_other {read i : Instr} (code : ResultCode) (flag : Bool) (hread : i ≠ read) (hcomp : i ≠ .comp) :
    freshAfter read i code flag = flag := by
  simp [freshAfter, hread, hcomp]

/-- An extraction function is none of the commands. -/
theorem ne_of_isCommand_eq_false {i j : Instr} (hi : isCommand i = false) (hj : isCommand j = true) : i ≠ j := by
  rintro rfl
  exact Bool.false_ne_true (hi.symm.trans hj)

theorem Effect.fresh_eq {i : Instr} {s t : State} (h : Effect i s t) (hr : noResetListed s) :
    t.pFresh = freshAfter .rdPrs i t.res s.pFresh ∧ t.tFresh = freshAfter .rdTmp i t.res s.tFresh := by
  cases h with
  | nop => simp [freshAfter_other]
  | refused _ _ code hc =>
    obtain ⟨hok, htr, -, -⟩ := refusalCode_some hc
    simp [freshAfter_refused _ _ _ hok htr]
  | loaded => simp [freshAfter_ok]
  | readPrs => simp [freshAfter_ok]
  | readTmp => simp [freshAfter_ok]
  | readFailed who => simp [freshAfter_eTransport, raiseTransport_pFresh, raiseTransport_tFresh]
  | readReset _ _ _ hm => exact absurd hm hr
  | computed => simp [freshAfter_ok]
  | extracted _ _ v hi =>
    have hne {j : Instr} (hj : isCommand j = true) : i ≠ j := ne_of_isCommand_eq_false hi hj
    exact ⟨(freshAfter_other _ _ (hne rfl) (hne rfl)).symm, (freshAfter_other _ _ (hne rfl) (hne rfl)).symm⟩

theorem readPRaw_eq_none {s : State} (h : s.pFresh = false) : readPRaw s = none := by
  simp [readPRaw, h]

theorem readTRaw_eq_none {s : State} (h : s.tFresh = false) : readTRaw s = none := by
  simp [readTRaw, h]

/-- Settles O43, by the cases of an instruction's effect; a register without its flag is shut by its guard. -/
theorem freshnessFlags : Obligations.FreshnessFlags := by
  unfold Obligations.FreshnessFlags
  intro i s t h hr
  obtain ⟨hp, ht⟩ := (exec_effect h).fresh_eq hr
  exact ⟨hp, ht, readPRaw_eq_none, readTRaw_eq_none⟩

/-! ### The result code -/

theorem raiseTransport_setRes (who : Reader) (r : ResultCode) (s : State) :
    raiseTransport who (setRes r s) = raiseTransport who s := by
  cases who <;> rfl

/-- The reads and their three ends do not see `RES`, where the commit does not. -/
theorem runReads_setRes (who : Reader) {commit : List Byte → State → State} (r : ResultCode) (s : State)
    (hc : ∀ staged u, complete (commit staged (setRes r u)) = complete (commit staged u)) :
    runReads who commit (setRes r s) = runReads who commit s := by
  by_cases hh : hangs who.count s.env.replies = true
  · simp [runReads, hh]
  · cases hloop : readLoop who.base who.count 0 s.env with
    | done staged e =>
      simp only [runReads, setRes_env, hh, hloop]
      exact congrArg Host.Outcome.next (hc staged { s with env := e })
    | failed e =>
      simp only [runReads, setRes_env, hh, hloop]
      exact congrArg Host.Outcome.next (raiseTransport_setRes who r { s with env := e })
    | reset e => simp [runReads, hh, hloop, resetBlock]
    | hung => exact absurd ((readLoop_hung_iff _ _ _ _).1 hloop) hh

theorem execCalLoad_setRes (r : ResultCode) (s : State) : execCalLoad (setRes r s) = execCalLoad s := by
  unfold execCalLoad
  rw [setRes_phase]
  split
  · rfl
  · rfl
  · exact runReads_setRes .calLoad r s fun _ _ => rfl

theorem execRdPrs_setRes (r : ResultCode) (s : State) : execRdPrs (setRes r s) = execRdPrs s := by
  unfold execRdPrs
  rw [setRes_phase]
  split
  · rfl
  · exact runReads_setRes .rdPrs r s fun _ _ => rfl
  · exact runReads_setRes .rdPrs r s fun _ _ => rfl

theorem execRdTmp_setRes (r : ResultCode) (s : State) : execRdTmp (setRes r s) = execRdTmp s := by
  unfold execRdTmp
  rw [setRes_phase]
  split
  · rfl
  · exact runReads_setRes .rdTmp r s fun _ _ => rfl
  · exact runReads_setRes .rdTmp r s fun _ _ => rfl

theorem execComp_setRes (r : ResultCode) (s : State) : execComp (setRes r s) = execComp s := rfl

/-- Settles O51, command by command; `NOP` gives the state it found. -/
theorem resultCodeIsOverwritten : Obligations.ResultCodeIsOverwritten := by
  unfold Obligations.ResultCodeIsOverwritten
  constructor
  · intro i s r hi hnop
    cases i with
    | nop => exact absurd rfl hnop
    | calLoad => exact execCalLoad_setRes r s
    | rdPrs => exact execRdPrs_setRes r s
    | rdTmp => exact execRdTmp_setRes r s
    | comp => exact execComp_setRes r s
    | _ => simp [isCommand] at hi
  · intro s t h
    obtain rfl : s = t := Host.Outcome.next.inj h
    rfl

end Sys2Proof.Machine
end

section
/-! PROOFS of the statements about the reads of the device (20_memory.md): the events of each command and the addresses
formed. -/

namespace Sys2Proof.Machine

/-! ### The world outside after reads -/

@[simp] theorem afterReads_history (base : RegAddr) (answers : List (Option Byte)) (e : Env) :
    (afterReads base answers e).history = e.history ++ readEvents base 0 answers := rfl

@[simp] theorem afterReads_replies (base : RegAddr) (answers : List (Option Byte)) (e : Env) :
    (afterReads base answers e).replies = e.replies.drop answers.length := rfl

@[simp] theorem raiseTransport_env (who : Reader) (s : State) : (raiseTransport who s).env = s.env := by
  cases who <;> rfl

/-! ### The events of an instruction -/

theorem Reader.instr_injective : Function.Injective Reader.instr := by
  intro a b h
  cases a <;> cases b <;> simp [Reader.instr] at h ⊢

theorem Reader.instr_ne_nop (who : Reader) : who.instr ≠ .nop := by
  cases who <;> simp [Reader.instr]

theorem Reader.instr_ne_comp (who : Reader) : who.instr ≠ .comp := by
  cases who <;> simp [Reader.instr]

theorem Reader.isCommand_instr (who : Reader) : isCommand who.instr = true := by
  cases who <;> rfl

/-- An instruction that is no reading command, or is refused, issues no read. -/
theorem Effect.no_reads {i : Instr} {s t : State} (h : Effect i s t)
    (hi : ∀ who : Reader, i = who.instr → refusalCode i s ≠ none) :
    t.env.history = s.env.history ∧ t.env.replies = s.env.replies := by
  cases h with
  | nop | refused | computed | extracted => simp
  | loaded _ _ hp => exact absurd (by simp [refusalCode, hp]) (hi .calLoad rfl)
  | readPrs _ _ hc => exact absurd hc (hi .rdPrs rfl)
  | readTmp _ _ hc => exact absurd hc (hi .rdTmp rfl)
  | readFailed who _ _ hc => exact absurd hc (hi who rfl)
  | readReset who _ _ _ hc => exact absurd hc (hi who rfl)

/-- A reading command that runs reads all its bytes and ends with OK, or ends at the first read without a byte: a failed
one, or one that reset cuts off. -/
theorem Effect.reads {who : Reader} {s t : State} (h : Effect who.instr s t) (hc : refusalCode who.instr s = none) :
    (t.res = .ok ∧ ∃ got : List Byte, got.length = who.count ∧
      t.env = afterReads who.base (got.map some) s.env) ∨
    ((t.res = .eTransport ∨ Reply.reset ∈ s.env.replies) ∧ ∃ got : List Byte, got.length < who.count ∧
      t.env = afterReads who.base (got.map some ++ [none]) s.env) := by
  generalize hi : who.instr = i at h hc
  cases h with
  | nop => exact absurd hi who.instr_ne_nop
  | refused _ _ _ hcode => simp [hcode] at hc
  | loaded _ staged _ hl =>
    obtain rfl : who = .calLoad := Reader.instr_injective hi
    exact .inl ⟨rfl, staged, hl, rfl⟩
  | readPrs _ staged _ hl =>
    obtain rfl : who = .rdPrs := Reader.instr_injective hi
    exact .inl ⟨rfl, staged, hl, rfl⟩
  | readTmp _ staged _ hl =>
    obtain rfl : who = .rdTmp := Reader.instr_injective hi
    exact .inl ⟨rfl, staged, hl, rfl⟩
  | readFailed who' _ got _ hl =>
    obtain rfl : who = who' := Reader.instr_injective hi
    exact .inr ⟨.inl (by simp), got, hl, by simp⟩
  | readReset who' _ got hm _ hl =>
    obtain rfl : who = who' := Reader.instr_injective hi
    exact .inr ⟨.inr hm, got, hl, by simp⟩
  | computed => exact absurd hi who.instr_ne_comp
  | extracted _ _ _ hext =>
    subst hi
    simp [Reader.isCommand_instr] at hext

/-- Settles O47: the two ends of the reads of a command that runs, short of reset; no other instruction reads. -/
theorem eventSequence : Obligations.EventSequence := by
  unfold Obligations.EventSequence
  constructor
  · intro who s t h hr hc
    rcases (exec_effect h).reads hc with ⟨hok, got, hl, henv⟩ | ⟨hend, got, hl, henv⟩
    · exact .inl ⟨hok, got, hl, by simp [henv], by simp [henv, hl]⟩
    · exact .inr ⟨hend.resolve_right hr, got, hl, by simp [henv], by simp [henv]⟩
  · intro i s t h hi
    refine (exec_effect h).no_reads fun who hwho => ?_
    subst hwho
    rcases hi with hcomp | hnop | hrefused
    · exact absurd hcomp who.instr_ne_comp
    · exact absurd hnop who.instr_ne_nop
    · exact hrefused

/-! ### The addresses -/

/-- No address of a command wraps, and none is above 0x21. -/
theorem Reader.toNat_addr {who : Reader} {idx : Nat} (h : idx < who.count) :
    (who.base + BitVec.ofNat 8 idx).toNat = who.base.toNat + idx ∧ who.base.toNat + idx ≤ 0x21 := by
  have hmax : who.base.toNat + who.count ≤ 0x22 := by cases who <;> decide
  rw [BitVec.toNat_add, BitVec.toNat_ofNat]
  omega

/-- However the reads of a command end, there are at most as many as it has bytes. -/
theorem Effect.env_eq_afterReads {who : Reader} {s t : State} (h : Effect who.instr s t)
    (hc : refusalCode who.instr s = none) :
    ∃ answers : List (Option Byte), answers.length ≤ who.count ∧ t.env = afterReads who.base answers s.env := by
  rcases h.reads hc with ⟨-, got, hl, henv⟩ | ⟨-, got, hl, henv⟩
  · exact ⟨got.map some, by simp [hl], henv⟩
  · exact ⟨got.map some ++ [none], by simpa using hl, henv⟩

/-- Settles O48: an event is of a reading command that runs, at its base plus the number of a read. -/
theorem addressesFormed : Obligations.AddressesFormed := by
  unfold Obligations.AddressesFormed
  intro i s t h
  have heff := exec_effect h
  by_cases hruns : ∃ who : Reader, i = who.instr ∧ refusalCode i s = none
  · obtain ⟨who, rfl, hc⟩ := hruns
    obtain ⟨answers, hlen, henv⟩ := heff.env_eq_afterReads hc
    refine ⟨readEvents who.base 0 answers, by simp [henv], fun ev hev => ?_⟩
    obtain ⟨idx, hidx, haddr⟩ := mem_readEvents hev
    obtain ⟨hnowrap, hmax⟩ := Reader.toNat_addr (hidx.trans_le hlen)
    rw [Nat.zero_add] at haddr
    exact ⟨who, idx, rfl, hidx.trans_le hlen, by rw [haddr, hnowrap], by rw [haddr, hnowrap]; exact hmax⟩
  · obtain ⟨hhistory, -⟩ := heff.no_reads fun who hi hc => hruns ⟨who, hi, hc⟩
    exact ⟨[], by simp [hhistory], by simp⟩

end Sys2Proof.Machine
end

section
/-! PROOFS of the statements about the calibration coefficient extractor (40_calibration_extractor.md): sign extension,
the fields and the bytes they are made of, the bijection between images and tuples, and `CAL_LOAD`. -/

namespace Sys2Proof.Machine

/-! ### Sign extension -/

/-- The signed value of the pattern of an integer in range is that integer (10_state.md R22). -/
theorem signedValue_ofInt {n : Nat} {v : Int} (hn : 0 < n) (hv : inRange n v = true) :
    signedValue (BitVec.ofInt n v) = v := by
  obtain ⟨hlow, hhigh⟩ : -(2 ^ (n - 1) : Int) ≤ v ∧ v < 2 ^ (n - 1) := by simpa [inRange] using hv
  rw [signedValue_eq_toInt hn, BitVec.toInt_ofInt_eq_self hn hlow hhigh]

theorem ofInt_signedValue {n : Nat} (hn : 0 < n) (u : BitVec n) : BitVec.ofInt n (signedValue u) = u := by
  rw [signedValue_eq_toInt hn, BitVec.ofInt_toInt]

/-- Every pattern has a value in the range of its field (10_state.md R21). -/
theorem inRange_signedValue {n : Nat} (hn : 0 < n) (u : BitVec n) : inRange n (signedValue u) = true := by
  rw [signedValue_eq_toInt hn]
  simpa [inRange] using And.intro u.le_toInt u.toInt_lt

/-- The bits of the container: `2^W - 2^N` is a multiple of `2^N`, so adding it is setting the upper bits. -/
theorem add_upper_mask_eq_or {n w u : Nat} (hnw : n ≤ w) (hu : u < 2 ^ n) :
    u + (2 ^ w - 2 ^ n) = u ||| (2 ^ w - 2 ^ n) := by
  have hmask : 2 ^ w - 2 ^ n = (2 ^ (w - n) - 1) <<< n := by
    rw [Nat.shiftLeft_eq, Nat.sub_mul, one_mul, ← pow_add, Nat.sub_add_cancel hnw]
  rw [hmask, Nat.or_comm, ← Nat.shiftLeft_add_eq_or_of_lt hu, Nat.add_comm]

/-- Settles O6: a container keeps the two's-complement value, and its upper bits are the mask where the top bit is
set. -/
theorem signExtensionInAContainer : Obligations.SignExtensionInAContainer := by
  unfold Obligations.SignExtensionInAContainer
  refine ⟨fun n w u hn hnw => ⟨?_, ?_⟩, by norm_num, by norm_num, by norm_num⟩
  · rw [BitVec.toInt_signExtend_of_le hnw.le, ← signedValue_eq_toInt hn, signedValue]
  · have hlow : (u.setWidth w).toNat = u.toNat := BitVec.toNat_setWidth_of_le hnw.le
    rw [BitVec.toNat_signExtend, hlow, BitVec.msb_eq_getLsbD_last]
    split
    · exact add_upper_mask_eq_or hnw.le u.isLt
    · rfl

/-! ### The parts of a field -/

@[simp] theorem assembleC00_b0 (b0 b1 : Byte) (hi : Nibble) : (assembleC00 b0 b1 hi).extractLsb' 12 8 = b0 := by
  apply BitVec.eq_of_toNat_eq
  rw [BitVec.extractLsb'_toNat, assembleC00_toNat, Nat.shiftRight_eq_div_pow]
  omega

@[simp] theorem assembleC00_b1 (b0 b1 : Byte) (hi : Nibble) : (assembleC00 b0 b1 hi).extractLsb' 4 8 = b1 := by
  apply BitVec.eq_of_toNat_eq
  rw [BitVec.extractLsb'_toNat, assembleC00_toNat, Nat.shiftRight_eq_div_pow]
  omega

@[simp] theorem assembleC00_nibble (b0 b1 : Byte) (hi : Nibble) : (assembleC00 b0 b1 hi).extractLsb' 0 4 = hi :=
  BitVec.extractLsb'_append_eq_right

@[simp] theorem assembleC10_nibble (lo : Nibble) (b3 b4 : Byte) : (assembleC10 lo b3 b4).extractLsb' 16 4 = lo := by
  apply BitVec.eq_of_toNat_eq
  rw [BitVec.extractLsb'_toNat, assembleC10_toNat, Nat.shiftRight_eq_div_pow]
  omega

@[simp] theorem assembleC10_b3 (lo : Nibble) (b3 b4 : Byte) : (assembleC10 lo b3 b4).extractLsb' 8 8 = b3 := by
  apply BitVec.eq_of_toNat_eq
  rw [BitVec.extractLsb'_toNat, assembleC10_toNat, Nat.shiftRight_eq_div_pow]
  omega

@[simp] theorem assembleC10_b4 (lo : Nibble) (b3 b4 : Byte) : (assembleC10 lo b3 b4).extractLsb' 0 8 = b4 :=
  BitVec.extractLsb'_append_eq_right

@[simp] theorem assemble16_high (high low : Byte) : (assemble16 high low).extractLsb' 8 8 = high :=
  BitVec.extractLsb'_append_eq_left

@[simp] theorem assemble16_low (high low : Byte) : (assemble16 high low).extractLsb' 0 8 = low :=
  BitVec.extractLsb'_append_eq_right

@[simp] theorem splitShared_append (hi lo : Nibble) : splitShared (hi ++ lo : BitVec (4 + 4)) = (hi, lo) :=
  Prod.ext BitVec.extractLsb'_append_eq_left BitVec.extractLsb'_append_eq_right

/-- The two nibbles make up the shared byte (30_encoding.md R92). -/
@[simp] theorem append_splitShared (b : Byte) : ((splitShared b).1 ++ (splitShared b).2 : BitVec (4 + 4)) = b :=
  (BitVec.extractLsb'_append_extractLsb'_eq_extractLsb' rfl).trans BitVec.extractLsb'_eq_self

@[simp] theorem assembleC00_parts (u : BitVec 20) :
    assembleC00 (u.extractLsb' 12 8) (u.extractLsb' 4 8) (u.extractLsb' 0 4) = u := by
  apply BitVec.eq_of_toNat_eq
  simp only [assembleC00_toNat, BitVec.extractLsb'_toNat, Nat.shiftRight_eq_div_pow]
  omega

@[simp] theorem assembleC10_parts (u : BitVec 20) :
    assembleC10 (u.extractLsb' 16 4) (u.extractLsb' 8 8) (u.extractLsb' 0 8) = u := by
  apply BitVec.eq_of_toNat_eq
  simp only [assembleC10_toNat, BitVec.extractLsb'_toNat, Nat.shiftRight_eq_div_pow]
  omega

@[simp] theorem assemble16_parts (u : BitVec 16) : assemble16 (u.extractLsb' 8 8) (u.extractLsb' 0 8) = u :=
  (BitVec.extractLsb'_append_extractLsb'_eq_extractLsb' rfl).trans BitVec.extractLsb'_eq_self

/-! ### Images and patterns -/

/-- The 15 bytes in which seven patterns are encoded: `pack` after its step to patterns (30_encoding.md R92). -/
def Coefs.bytes (p : Coefs) : List Byte :=
  [p.c00.extractLsb' 12 8, p.c00.extractLsb' 4 8,
   (p.c00.extractLsb' 0 4 ++ p.c10.extractLsb' 16 4 : BitVec (4 + 4)),
   p.c10.extractLsb' 8 8, p.c10.extractLsb' 0 8,
   p.c01.extractLsb' 8 8, p.c01.extractLsb' 0 8, p.c11.extractLsb' 8 8, p.c11.extractLsb' 0 8,
   p.c20.extractLsb' 8 8, p.c20.extractLsb' 0 8, p.c21.extractLsb' 8 8, p.c21.extractLsb' 0 8,
   p.c30.extractLsb' 8 8, p.c30.extractLsb' 0 8]

theorem Coefs.length_bytes (p : Coefs) : p.bytes.length = 15 := rfl

/-- The decode of the image of 15 bytes, field by field (30_encoding.md R87). -/
theorem decodeImage_calImage (bytes : List Byte) (h : bytes.length = 15) :
    decodeImage (calImage bytes) =
      { c00 := assembleC00 bytes[0] bytes[1] (splitShared bytes[2]).1
        c10 := assembleC10 (splitShared bytes[2]).2 bytes[3] bytes[4]
        c01 := assemble16 bytes[5] bytes[6]
        c11 := assemble16 bytes[7] bytes[8]
        c20 := assemble16 bytes[9] bytes[10]
        c21 := assemble16 bytes[11] bytes[12]
        c30 := assemble16 bytes[13] bytes[14] } := by
  simp [decodeImage, calByte_calImage bytes h, h]

theorem decodeImage_calImage_bytes (p : Coefs) : decodeImage (calImage p.bytes) = p := by
  rw [decodeImage_calImage _ p.length_bytes]
  simp [Coefs.bytes]

theorem bytes_decodeImage (img : BitVec 120) : (decodeImage img).bytes = imageBytes img := by
  simp [Coefs.bytes, decodeImage, imageBytes, List.range_succ]

/-- Every bit of an image is a bit of one of its bytes. -/
theorem getLsbD_calByte (img : BitVec 120) {k : Nat} (hk : k < 120) :
    (calByte img (14 - k / 8)).getLsbD (k % 8) = img.getLsbD k := by
  have hplace : 112 - 8 * (14 - k / 8) + k % 8 = k := by omega
  have hbit : k % 8 < 8 := by omega
  simp [calByte, hplace, hbit]

/-- An image is its 15 bytes (30_encoding.md R83). -/
theorem imageBytes_injective : Function.Injective imageBytes := by
  intro img img' h
  have hbyte : ∀ i < 15, calByte img i = calByte img' i := by simpa [imageBytes] using h
  apply BitVec.eq_of_getLsbD_eq
  intro k hk
  rw [← getLsbD_calByte img hk, hbyte _ (by omega), getLsbD_calByte img' hk]

/-- Different byte strings are different images (30_encoding.md R83). -/
theorem calImage_inj {bytes bytes' : List Byte} (hl : bytes.length = 15) (hl' : bytes'.length = 15)
    (h : calImage bytes = calImage bytes') : bytes = bytes' := by
  refine List.ext_getElem (hl.trans hl'.symm) fun i hi hi' => ?_
  rw [← calByte_calImage bytes hl i hi, h, calByte_calImage bytes' hl' i hi']

/-! ### Patterns and tuples -/

/-- The seven patterns that stand for seven integers (10_state.md R22). -/
def coefPatterns (c : CoefVals) : Coefs :=
  { c00 := BitVec.ofInt 20 c.c00
    c10 := BitVec.ofInt 20 c.c10
    c01 := BitVec.ofInt 16 c.c01
    c11 := BitVec.ofInt 16 c.c11
    c20 := BitVec.ofInt 16 c.c20
    c21 := BitVec.ofInt 16 c.c21
    c30 := BitVec.ofInt 16 c.c30 }

theorem pack_eq_bytes (c : CoefVals) : pack c = (coefPatterns c).bytes := rfl

theorem coefPatterns_coefValues (p : Coefs) : coefPatterns (coefValues p) = p := by
  simp [coefPatterns, coefValues, ofInt_signedValue]

theorem coefValues_coefPatterns {c : CoefVals} (h : c.wellFormed = true) : coefValues (coefPatterns c) = c := by
  simp only [CoefVals.wellFormed, Bool.and_eq_true] at h
  obtain ⟨⟨⟨⟨⟨⟨h00, h10⟩, h01⟩, h11⟩, h20⟩, h21⟩, h30⟩ := h
  simp [coefPatterns, coefValues, signedValue_ofInt, h00, h10, h01, h11, h20, h21, h30]

theorem coefValues_wellFormed (p : Coefs) : (coefValues p).wellFormed = true := by
  simp [CoefVals.wellFormed, coefValues, inRange_signedValue]

/-- `pack` undoes extraction. -/
theorem pack_coefValues_decodeImage (img : BitVec 120) : pack (coefValues (decodeImage img)) = imageBytes img := by
  rw [pack_eq_bytes, coefPatterns_coefValues, bytes_decodeImage]

/-- Extraction undoes `pack` (40_calibration_extractor.md R125). -/
theorem coefValues_decodeImage_pack {c : CoefVals} (h : c.wellFormed = true) :
    coefValues (decodeImage (calImage (pack c))) = c := by
  rw [pack_eq_bytes, decodeImage_calImage_bytes, coefValues_coefPatterns h]

/-- Settles O5: bytes give the patterns back, and the patterns the integers in range. -/
theorem packThenExtractIsIdentity : Obligations.PackThenExtractIsIdentity := by
  unfold Obligations.PackThenExtractIsIdentity
  exact fun c h => ⟨rfl, coefValues_decodeImage_pack h⟩

/-! ### CAL_LOAD -/

/-- The world outside after reads that were answered with listed bytes. -/
theorem afterReads_listed (base : RegAddr) {bytes : List Byte} {rest : List Reply} {e : Env}
    (h : e.replies = bytes.map Reply.byte ++ rest) :
    afterReads base (bytes.map some) e =
      { e with replies := rest, history := e.history ++ readEvents base 0 (bytes.map some) } := by
  simp [afterReads, h]

/-- The world outside after listed bytes and a failed read. -/
theorem afterReads_listed_failed (base : RegAddr) {got : List Byte} {rest : List Reply} {e : Env}
    (h : e.replies = got.map Reply.byte ++ .failed :: rest) :
    afterReads base (got.map some ++ [none]) e =
      { e with replies := rest, history := e.history ++ readEvents base 0 (got.map some ++ [none]) } := by
  simp [afterReads, h, List.drop_append]

/-- A refused instruction writes its code and does nothing else, in every cell of the acceptance matrix
(43_control.md R196, 60_exceptions.md R214). -/
theorem exec_refused {i : Instr} {s : State} {code : ResultCode} (h : refusalCode i s = some code) :
    exec i s = .next (refuse code s) := by
  cases i with
  | calLoad =>
    cases hp : s.phase <;> simp [refusalCode, hp] at h
    all_goals simp [exec, execCalLoad, hp, h]
  | rdPrs =>
    cases hp : s.phase <;> simp [refusalCode, hp] at h
    simp [exec, execRdPrs, hp, h]
  | rdTmp =>
    cases hp : s.phase <;> simp [refusalCode, hp] at h
    simp [exec, execRdTmp, hp, h]
  | comp =>
    cases hp : s.phase with
    | unloaded | failed =>
      simp only [refusalCode, hp, Option.some.injEq] at h
      simp [exec, execComp, hp, h]
    | ready =>
      obtain ⟨hstale, hcode⟩ : (s.pFresh = true → s.tFresh = false) ∧ .eStale = code := by
        simpa [refusalCode, hp] using h
      have hflag : s.pFresh = false ∨ s.tFresh = false := by
        simpa [Classical.or_iff_not_imp_left] using hstale
      simp [exec, execComp, hp, hflag, hcode]
  | _ => simp [refusalCode] at h

/-- In `UNLOADED`, `CAL_LOAD` is its reads (40_calibration_extractor.md R121). -/
theorem exec_calLoad_unloaded {s : State} (h : s.phase = .unloaded) :
    exec .calLoad s = runReads .calLoad (fun staged => commitCoefs (decodeImage (calImage staged))) s := by
  simp [exec, execCalLoad, h]

/-- `CAL_LOAD` in `UNLOADED` whose 15 reads are answered with bytes (40_calibration_extractor.md R121). -/
theorem exec_calLoad_listed {s : State} {bytes : List Byte} {rest : List Reply} (hp : s.phase = .unloaded)
    (hl : bytes.length = 15) (h : s.env.replies = bytes.map Reply.byte ++ rest) :
    exec .calLoad s = .next { s with
      coef := some (decodeImage (calImage bytes)), phase := .ready, res := .ok,
      env := { s.env with
        replies := rest
        history := s.env.history ++ readEvents 0x13#8 0 (bytes.map some) } } := by
  rw [exec_calLoad_unloaded hp, runReads_listed .calLoad _ s bytes rest hl h, afterReads_listed _ h]
  rfl

/-- `CAL_LOAD` in `UNLOADED` whose read number `got.length` fails (40_calibration_extractor.md R123). -/
theorem exec_calLoad_failed {s : State} {got : List Byte} {rest : List Reply} (hp : s.phase = .unloaded)
    (hl : got.length < 15) (h : s.env.replies = got.map Reply.byte ++ .failed :: rest) :
    exec .calLoad s = .next { s with
      phase := .failed, res := .eTransport,
      env := { s.env with
        replies := rest
        history := s.env.history ++ readEvents 0x13#8 0 (got.map some ++ [none]) } } := by
  rw [exec_calLoad_unloaded hp, runReads_listed_failed .calLoad _ s got rest hl h, afterReads_listed_failed _ h]
  rfl

/-- Settles O4: a load commits the decode of its image; `pack` is the inverse of extraction on both sides, and an image
is its bytes. -/
theorem imagesAndTuplesCorrespond : Obligations.ImagesAndTuplesCorrespond := by
  unfold Obligations.ImagesAndTuplesCorrespond
  refine ⟨?_, ?_, ?_, ?_⟩
  · intro s bytes rest hp hl h
    exact ⟨_, _, exec_calLoad_listed hp hl h, rfl, rfl, rfl, rfl, coefValues_wellFormed _⟩
  · intro img img' h
    have hpack := congrArg pack h
    rw [pack_coefValues_decodeImage, pack_coefValues_decodeImage] at hpack
    exact imageBytes_injective hpack
  · exact fun c h => ⟨calImage (pack c), coefValues_decodeImage_pack h⟩
  · exact fun bytes bytes' => calImage_inj

/-- Settles O17: the failed load is in `FAILED`, where the other four commands are refused with `E_FATAL`. -/
theorem failedLoadIsFatal : Obligations.FailedLoadIsFatal := by
  unfold Obligations.FailedLoadIsFatal
  intro s got rest hp hl h
  refine ⟨_, exec_calLoad_failed hp hl h, rfl, rfl, fun i hi => exec_refused ?_⟩
  rcases hi with rfl | rfl | rfl | rfl <;> rfl

/-! ### The fields by shift, or and mask -/

theorem assembleC00_toNat_shifts (b0 b1 : Byte) (hi : Nibble) :
    (assembleC00 b0 b1 hi).toNat = (b0.toNat <<< 12) ||| (b1.toNat <<< 4) ||| hi.toNat := by
  show (b0 ++ b1 ++ hi : BitVec (8 + 8 + 4)).toNat = _
  rw [BitVec.toNat_append, BitVec.toNat_append, Nat.shiftLeft_or_distrib, ← Nat.shiftLeft_add]

theorem assembleC10_toNat_shifts (lo : Nibble) (b3 b4 : Byte) :
    (assembleC10 lo b3 b4).toNat = (lo.toNat <<< 16) ||| (b3.toNat <<< 8) ||| b4.toNat := by
  show (lo ++ b3 ++ b4 : BitVec (4 + 8 + 8)).toNat = _
  rw [BitVec.toNat_append, BitVec.toNat_append, Nat.shiftLeft_or_distrib, ← Nat.shiftLeft_add]

theorem assemble16_toNat_shifts (high low : Byte) :
    (assemble16 high low).toNat = (high.toNat <<< 8) ||| low.toNat :=
  BitVec.toNat_append high low

theorem splitShared_high_shift (b : Byte) : (splitShared b).1.toNat = b.toNat >>> 4 := by
  rw [splitShared_high, Nat.shiftRight_eq_div_pow]

theorem splitShared_low_mask (b : Byte) : (splitShared b).2.toNat = b.toNat &&& 0x0F := by
  rw [splitShared_low]
  exact (Nat.and_two_pow_sub_one_eq_mod b.toNat 4).symm

/-- Settles O16: the load commits the decode of its image, whose fields are the rule's formulas. -/
theorem calLoadLoadsTheImage : Obligations.CalLoadLoadsTheImage := by
  unfold Obligations.CalLoadLoadsTheImage
  intro s
  refine ⟨fun hp => ?_, fun hp => ?_, ?_⟩
  · exact exec_refused (by simp [refusalCode, hp])
  · exact exec_refused (by simp [refusalCode, hp])
  · intro b0 b1 b2 b3 b4 b5 b6 b7 b8 b9 b10 b11 b12 b13 b14 rest hp h
    refine ⟨_, exec_calLoad_listed hp rfl h, ?_⟩
    rw [decodeImage_calImage _ rfl]
    simp [signedValue, assembleC00_toNat_shifts, assembleC10_toNat_shifts, assemble16_toNat_shifts,
      splitShared_high_shift, splitShared_low_mask]

/-! ### The shared byte -/

theorem splitShared_injective : Function.Injective splitShared :=
  Function.LeftInverse.injective (g := fun p : Nibble × Nibble => (p.1 ++ p.2 : BitVec (4 + 4))) append_splitShared

theorem assembleC00_nibble_injective (b0 b1 : Byte) : Function.Injective (assembleC00 b0 b1) :=
  Function.LeftInverse.injective (assembleC00_nibble b0 b1)

theorem assembleC10_nibble_injective (b3 b4 : Byte) : Function.Injective (assembleC10 · b3 b4) :=
  Function.LeftInverse.injective (assembleC10_nibble · b3 b4)

/-- Settles O20: each nibble stands in one field only, and the field determines it; the byte is its two nibbles. -/
theorem sharedByteNibblesAreIndependent : Obligations.SharedByteNibblesAreIndependent := by
  unfold Obligations.SharedByteNibblesAreIndependent
  intro b0 b1 b2 b2' tail hl hne c c'
  have hc : c = _ := decodeImage_calImage (b0 :: b1 :: b2 :: tail) (by simp [hl])
  have hc' : c' = _ := decodeImage_calImage (b0 :: b1 :: b2' :: tail) (by simp [hl])
  rw [hc, hc']
  refine ⟨splitShared_high_shift b2, splitShared_low_mask b2, ?_, ?_, fun hlow => ⟨?_, ?_⟩,
    fun hhigh => ⟨?_, ?_⟩⟩
  · simp only [List.getElem_cons_zero, List.getElem_cons_succ, assembleC00_toNat]
    omega
  · simp only [List.getElem_cons_zero, List.getElem_cons_succ, assembleC10_toNat]
    omega
  · exact fun h => hne (splitShared_injective (Prod.ext (assembleC00_nibble_injective b0 b1 h) hlow))
  · simp [hlow]
  · exact fun h => hne (splitShared_injective (Prod.ext hhigh (assembleC10_nibble_injective _ _ h)))
  · simp [hhigh]

end Sys2Proof.Machine
end

section
/-! PROOFS of the statements about the sample front end (41_sample_decode.md): `RD_PRS`, `RD_TMP` and their failures. -/

namespace Sys2Proof.Machine

/-! ### Reading commands, whichever register they fill -/

/-- What each reading command does with the bytes it has staged (40_calibration_extractor.md R121, 41_sample_decode.md
R144, R145). -/
def Reader.commit : Reader → List Byte → State → State
  | .calLoad, staged => commitCoefs (decodeImage (calImage staged))
  | .rdPrs, staged => commitPRaw (decodeSample (rawImage staged))
  | .rdTmp, staged => commitTRaw (decodeSample (rawImage staged))

theorem exec_reader {who : Reader} {s : State} (hc : refusalCode who.instr s = none) :
    exec who.instr s = runReads who who.commit s := by
  cases who with
  | calLoad =>
    cases hp : s.phase <;> simp [Reader.instr, refusalCode, hp] at hc
    exact exec_calLoad_unloaded hp
  | rdPrs | rdTmp =>
    cases hp : s.phase <;> simp [Reader.instr, refusalCode, hp] at hc
    all_goals
      simp only [Reader.instr, exec, execRdPrs, execRdTmp, hp]
      rfl

/-- An accepted reading command, all of whose reads are answered with listed bytes. -/
theorem exec_reader_listed {who : Reader} {s : State} {bytes : List Byte} {rest : List Reply}
    (hc : refusalCode who.instr s = none) (hl : bytes.length = who.count)
    (h : s.env.replies = bytes.map Reply.byte ++ rest) :
    exec who.instr s = .next (complete (who.commit bytes { s with env := { s.env with
      replies := rest
      history := s.env.history ++ readEvents who.base 0 (bytes.map some) } })) := by
  rw [exec_reader hc, runReads_listed who _ s bytes rest hl h, afterReads_listed _ h]

/-- An accepted reading command whose read number `got.length` fails. -/
theorem exec_reader_failed {who : Reader} {s : State} {got : List Byte} {rest : List Reply}
    (hc : refusalCode who.instr s = none) (hl : got.length < who.count)
    (h : s.env.replies = got.map Reply.byte ++ .failed :: rest) :
    exec who.instr s = .next (raiseTransport who { s with env := { s.env with
      replies := rest
      history := s.env.history ++ readEvents who.base 0 (got.map some ++ [none]) } }) := by
  rw [exec_reader hc, runReads_listed_failed who _ s got rest hl h, afterReads_listed_failed _ h]

/-! ### Acceptance -/

theorem refusalCode_reader_failed (who : Reader) {s : State} (hp : s.phase = .failed) :
    refusalCode who.instr s = some .eFatal := by
  cases who <;> simp [Reader.instr, refusalCode, hp]

/-- A sample read needs no coefficient (41_sample_decode.md R144). -/
theorem refusalCode_sample {who : Reader} {s : State} (hw : who ≠ .calLoad)
    (hp : s.phase = .unloaded ∨ s.phase = .ready) : refusalCode who.instr s = none := by
  cases who with
  | calLoad => exact absurd rfl hw
  | rdPrs | rdTmp => rcases hp with hp | hp <;> simp [Reader.instr, refusalCode, hp]

/-- A sample that is not fresh makes `COMP` refuse in `READY` (42_compensation_pipeline.md R176). -/
theorem exec_comp_stale {s : State} (hp : s.phase = .ready) (hf : s.pFresh = false ∨ s.tFresh = false) :
    exec .comp s = .next (refuse .eStale s) := by
  apply exec_refused
  rcases hf with hf | hf <;> simp [refusalCode, hp, hf]

/-! ### The sample pattern -/

theorem assembleRaw_toNat_shifts (s0 s1 s2 : Byte) :
    (assembleRaw s0 s1 s2).toNat = (s0.toNat <<< 16) ||| (s1.toNat <<< 8) ||| s2.toNat := by
  show (s0 ++ s1 ++ s2 : BitVec (8 + 8 + 8)).toNat = _
  rw [BitVec.toNat_append, BitVec.toNat_append, Nat.shiftLeft_or_distrib, ← Nat.shiftLeft_add]

theorem decodeSample_rawImage (s0 s1 s2 : Byte) : decodeSample (rawImage [s0, s1, s2]) = assembleRaw s0 s1 s2 := by
  simp [decodeSample, rawByte_rawImage]

/-- The value of a decoded sample, by the rule's formula (30_encoding.md R87, R88). -/
theorem signedValue_decodeSample (s0 s1 s2 : Byte) :
    signedValue (decodeSample (rawImage [s0, s1, s2])) =
      sext 24 ((s0.toNat <<< 16) ||| (s1.toNat <<< 8) ||| s2.toNat) := by
  rw [decodeSample_rawImage, signedValue, assembleRaw_toNat_shifts]

/-! ### RD_PRS and RD_TMP -/

/-- Settles O23: `RD_PRS` is accepted outside `FAILED`, and commits the decode of its three bytes. -/
theorem pressureReadDecodes : Obligations.PressureReadDecodes := by
  unfold Obligations.PressureReadDecodes
  refine fun s => ⟨fun hp => exec_refused (refusalCode_reader_failed .rdPrs hp), fun s0 s1 s2 rest hp h => ?_⟩
  have hc : refusalCode Reader.rdPrs.instr s = none := refusalCode_sample (by decide) hp
  exact ⟨_, exec_reader_listed hc rfl h, signedValue_decodeSample s0 s1 s2⟩

/-- Settles O24: `RD_TMP` is accepted outside `FAILED`, and commits the decode of its three bytes. -/
theorem temperatureReadDecodes : Obligations.TemperatureReadDecodes := by
  unfold Obligations.TemperatureReadDecodes
  refine fun s => ⟨fun hp => exec_refused (refusalCode_reader_failed .rdTmp hp), fun s0 s1 s2 rest hp h => ?_⟩
  have hc : refusalCode Reader.rdTmp.instr s = none := refusalCode_sample (by decide) hp
  exact ⟨_, exec_reader_listed hc rfl h, signedValue_decodeSample s0 s1 s2⟩

/-- Settles O25: the exception clears the sample's own flag only, and a cleared flag makes `COMP` stale. -/
theorem failedSampleReadIsRetryable : Obligations.FailedSampleReadIsRetryable := by
  unfold Obligations.FailedSampleReadIsRetryable
  intro s got rest hp hl h
  have hprs : refusalCode Reader.rdPrs.instr s = none := refusalCode_sample (by decide) hp
  have htmp : refusalCode Reader.rdTmp.instr s = none := refusalCode_sample (by decide) hp
  exact ⟨⟨_, exec_reader_failed hprs hl h, rfl, fun hr => exec_comp_stale hr (.inl rfl)⟩,
    ⟨_, exec_reader_failed htmp hl h, rfl, fun hr => exec_comp_stale hr (.inr rfl)⟩⟩

end Sys2Proof.Machine
end

section
/-! PROOFS of the statements about the compensation pipeline (42_compensation_pipeline.md): the one rounding and the
operations, conversion and scaling, the pipeline at zero and at `KP`, and `COMP`. -/

namespace Sys2Proof.Machine

/-! ### The rounding -/

theorem spacing_eq {fmt : Fmt} {x : ℚ} {l : Int} (hx : x ≠ 0) (hl : (2 : ℚ) ^ l ≤ |x|)
    (hu : |x| < (2 : ℚ) ^ (l + 1)) : spacing fmt x = (2 : ℚ) ^ (max l (emin fmt) - (prec fmt : Int) + 1) := by
  rw [spacing, ilog2_unique hx hl hu, pow2_eq]

/-- Two different integers have a distance of at least one, so one that is not nearest is at least one half away. -/
theorem one_le_sum_of_ne {y : ℚ} {n m : Int} (h : m ≠ n) : 1 ≤ |y - n| + |y - m| := by
  have hint : (1 : ℚ) ≤ |(m : ℚ) - n| := by exact_mod_cast Int.one_le_abs (sub_ne_zero.2 h)
  calc (1 : ℚ) ≤ |(m : ℚ) - n| := hint
    _ = |(y - n) - (y - m)| := by ring_nf
    _ ≤ |y - n| + |y - m| := abs_sub _ _

theorem nearestEven_nearest (y : ℚ) (m : Int) : |y - nearestEven y| ≤ |y - m| := by
  by_cases h : m = nearestEven y
  · rw [h]
  · linarith [one_le_sum_of_ne (y := y) h, nearestEven_close y]

theorem nearestEven_tie {y : ℚ} {m : Int} (hm : m ≠ nearestEven y) (h : |y - nearestEven y| = |y - m|) :
    nearestEven y % 2 = 0 :=
  nearestEven_half (by linarith [one_le_sum_of_ne (y := y) hm, nearestEven_close y])

/-- The distance to a multiple of the spacing, in units of the spacing. -/
theorem abs_sub_mul_eq {q : ℚ} (hq : 0 < q) (x : ℚ) (m : Int) : |x - m * q| = |x / q - m| * q := by
  rw [← abs_of_pos hq, ← abs_mul, abs_of_pos hq, sub_mul, div_mul_cancel₀ x hq.ne']

/-- Settles O29: the multiplier is the nearest integer of `x / q`, the even one of two. -/
theorem roundingIsToNearestEven : Obligations.RoundingIsToNearestEven := by
  unfold Obligations.RoundingIsToNearestEven
  refine fun fmt => ⟨rfl, fun x l hx hl hu => ?_⟩
  have hq := spacing_pos fmt x
  obtain ⟨n, hn, hcases⟩ := roundF_cases (fmt := fmt) hx
  refine ⟨spacing fmt x, n, spacing_eq hx hl hu, fun m => ?_, fun m hm htie => ?_, fun hsmall => ?_, fun hbig => ?_⟩
  · rw [abs_sub_mul_eq hq, abs_sub_mul_eq hq, hn]
    exact mul_le_mul_of_nonneg_right (nearestEven_nearest _ m) hq.le
  · rw [abs_sub_mul_eq hq, abs_sub_mul_eq hq, mul_left_inj' hq.ne'] at htie
    subst hn
    exact nearestEven_tie hm htie
  · rcases hcases with ⟨hzero, h⟩ | ⟨-, hbig, -⟩ | ⟨-, -, h⟩
    · rw [h, hzero]; rfl
    · exact absurd hsmall hbig.not_gt
    · rw [h]; rfl
  · rcases hcases with ⟨hzero, -⟩ | ⟨-, -, h⟩ | ⟨-, hsmall, -⟩
    · rw [hzero, abs_zero] at hbig
      exact absurd hbig (by positivity : (0 : ℚ) < (2 : ℚ) ^ (emax fmt + 1)).not_ge
    · exact h
    · exact absurd hsmall hbig.not_gt

/-! ### The operations on finite values -/

/-- The finite value `v` stands for the number `x`: a zero of either sign for 0, `num x` for any other. The exact
product inside `fma` is such a value too, and need not be representable. -/
inductive StandsFor : FVal → ℚ → Prop where
  | zero (s : Bool) : StandsFor (.zero s) 0
  | num (x : ℚ) : x ≠ 0 → StandsFor (.num x) x

theorem FiniteValue.standsFor {fmt : Fmt} {v : FVal} {x : ℚ} (h : FiniteValue fmt v x) : StandsFor v x := by
  rcases h with ⟨rfl, s, rfl⟩ | ⟨hx, -, rfl⟩
  · exact .zero s
  · exact .num x hx

theorem StandsFor.number {v : FVal} {x : ℚ} (h : StandsFor v x) : v.number = some x := by
  cases h <;> rfl

section
variable {fmt : Fmt} {a b c : FVal} {x y z : ℚ}

theorem fdiv_eq (ha : StandsFor a x) (hb : StandsFor b y) (hy : y ≠ 0) :
    fdiv fmt a b = if x = 0 then .zero (a.neg ^^ b.neg) else roundF fmt (x / y) := by
  cases hb with
  | zero => exact absurd rfl hy
  | num =>
    cases ha with
    | zero s => simp [fdiv, FVal.neg]
    | num _ hx => simp [fdiv, hx]

theorem fmul_eq (ha : StandsFor a x) (hb : StandsFor b y) :
    fmul fmt a b = if x * y = 0 then .zero (a.neg ^^ b.neg) else roundF fmt (x * y) := by
  cases ha with
  | zero s => cases hb <;> simp [fmul, FVal.neg]
  | num _ hx =>
    cases hb with
    | zero t => simp [fmul, FVal.neg]
    | num _ hy => simp [fmul, hx, hy]

theorem exactProduct_eq (ha : StandsFor a x) (hb : StandsFor b y) :
    exactProduct a b = if x * y = 0 then .zero (a.neg ^^ b.neg) else .num (x * y) := by
  cases ha with
  | zero s => cases hb <;> simp [exactProduct, FVal.neg]
  | num _ hx =>
    cases hb with
    | zero t => simp [exactProduct, FVal.neg]
    | num _ hy => simp [exactProduct, hx, hy]

theorem StandsFor.exactProduct (ha : StandsFor a x) (hb : StandsFor b y) :
    StandsFor (exactProduct a b) (x * y) := by
  rw [exactProduct_eq ha hb]
  split_ifs with h
  · rw [h]; exact .zero _
  · exact .num _ h

theorem fadd_eq (ha : StandsFor a x) (hb : StandsFor b y) :
    fadd fmt a b =
      if x + y = 0 then .zero (decide (a = .zero true ∧ b = .zero true)) else roundF fmt (x + y) := by
  cases ha with
  | zero s =>
    cases hb with
    | zero t => simp [fadd]
    | num _ hy => simp [fadd, hy]
  | num _ hx =>
    cases hb with
    | zero t => simp [fadd, hx]
    | num => by_cases h : x + y = 0 <;> simp [fadd, h, roundF]

theorem fadd_comm (ha : StandsFor a x) (hb : StandsFor b y) : fadd fmt a b = fadd fmt b a := by
  simp only [fadd_eq ha hb, fadd_eq hb ha, add_comm y x, and_comm]

theorem fma_eq (ha : StandsFor a x) (hb : StandsFor b y) (hc : StandsFor c z) :
    fma fmt a b c =
      if x * y + z = 0 then .zero (decide (x * y = 0) && (a.neg ^^ b.neg) && decide (c = .zero true))
      else roundF fmt (x * y + z) := by
  rw [fma, fadd_eq (ha.exactProduct hb) hc, exactProduct_eq ha hb]
  by_cases h : x * y = 0
  · simp only [h, if_true, decide_true, Bool.true_and, FVal.zero.injEq, Bool.decide_and, Bool.decide_eq_true]
  · simp [h]

end

/-- Settles O59: the rule of each operation, said of all finite values. -/
theorem operationsRoundOnce : Obligations.OperationsRoundOnce := by
  unfold Obligations.OperationsRoundOnce
  intro fmt a b c x y z ha hb hc
  exact ⟨fdiv_eq ha.standsFor hb.standsFor, fmul_eq ha.standsFor hb.standsFor, fadd_eq ha.standsFor hb.standsFor,
    fadd_comm ha.standsFor hb.standsFor, fma_eq ha.standsFor hb.standsFor hc.standsFor⟩

/-! ### Conversion -/

/-- An integer of magnitude at most `2^24`, as it is or divided by a power of two down to the least exponent, is
representable in both formats (42_compensation_pipeline.md R163, R164). -/
theorem representable_int_mul_zpow (fmt : Fmt) {v k : Int} (hv : |v| ≤ 2 ^ 24) (hlow : -149 ≤ k) (hhigh : k ≤ 0) :
    Representable fmt (v * (2 : ℚ) ^ k) := by
  have hmin : emin fmt - (prec fmt : Int) + 1 ≤ -149 := by cases fmt <;> simp [emin, prec]
  have hprec : (2 : Int) ^ 24 ≤ 2 ^ prec fmt := by cases fmt <;> simp [prec]
  have hmax : (24 : Int) < emax fmt + 1 := by cases fmt <;> simp [emax]
  have hbound : |(v : ℚ) * 2 ^ k| < 2 ^ (emax fmt + 1) := by
    rw [abs_mul, abs_of_pos (by positivity : (0 : ℚ) < 2 ^ k)]
    calc |(v : ℚ)| * 2 ^ k ≤ 2 ^ 24 * 1 :=
          mul_le_mul (by exact_mod_cast hv) (zpow_le_one_of_nonpos₀ one_le_two hhigh) (by positivity) (by positivity)
      _ = (2 : ℚ) ^ (24 : Int) := by norm_num
      _ < 2 ^ (emax fmt + 1) := zpow_lt_zpow_right₀ one_lt_two hmax
  rcases hv.lt_or_eq with hlt | heq
  · exact ⟨hbound, v, k, hmin.trans hlow, hlt.trans_le hprec, rfl⟩
  · have hne : v ≠ 0 := by
      rintro rfl
      norm_num at heq
    have hsign : (v : ℚ) = v.sign * 2 ^ 24 := by
      exact_mod_cast (by rw [← heq, Int.sign_mul_abs] : v = v.sign * 2 ^ 24)
    refine ⟨hbound, v.sign, k + 24, by omega, ?_, ?_⟩
    · rw [Int.abs_sign_of_ne_zero hne]
      exact lt_of_lt_of_le (by norm_num) hprec
    · rw [hsign, zpow_add₀ two_ne_zero, mul_assoc, mul_comm (2 ^ k : ℚ)]
      norm_num

theorem representable_int (fmt : Fmt) {v : Int} (hv : |v| ≤ 2 ^ 24) : Representable fmt v := by
  simpa using representable_int_mul_zpow fmt hv (by norm_num : (-149 : Int) ≤ 0) le_rfl

theorem standsFor_roundF {fmt : Fmt} {x : ℚ} (h : Representable fmt x) : StandsFor (roundF fmt x) x := by
  rw [roundF_exact h]
  split_ifs with hx
  · rw [hx]; exact .zero _
  · exact .num x hx

theorem standsFor_i2f (fmt : Fmt) {v : Int} (hv : |v| ≤ 2 ^ 24) : StandsFor (i2f fmt v) v :=
  standsFor_roundF (representable_int fmt hv)

theorem i2f_eq (fmt : Fmt) {v : Int} (hv : |v| ≤ 2 ^ 24) : i2f fmt v = if v = 0 then .zero false else .num v := by
  simp [i2f, roundF_exact (representable_int fmt hv)]

@[simp] theorem i2f_zero (fmt : Fmt) : i2f fmt 0 = .zero false := by simp [i2f, roundF]

/-- The range of a register, as a magnitude (10_state.md R21). -/
theorem abs_signedValue_le {n : Nat} (u : BitVec (n + 1)) : |signedValue u| ≤ 2 ^ n := by
  obtain ⟨hlow, hhigh⟩ : -(2 ^ n : Int) ≤ signedValue u ∧ signedValue u < 2 ^ n := by
    simpa [inRange] using inRange_signedValue n.succ_pos u
  exact abs_le.2 ⟨hlow, hhigh.le⟩

theorem abs_coefValues_le (c : Coefs) (k : CalFn) : |(coefValues c).get k| ≤ 2 ^ 19 := by
  have hle : (2 : Int) ^ 15 ≤ 2 ^ 19 := by norm_num
  cases k with
  | c00 => exact abs_signedValue_le (n := 19) c.c00
  | c10 => exact abs_signedValue_le (n := 19) c.c10
  | c01 => exact (abs_signedValue_le (n := 15) c.c01).trans hle
  | c11 => exact (abs_signedValue_le (n := 15) c.c11).trans hle
  | c20 => exact (abs_signedValue_le (n := 15) c.c20).trans hle
  | c21 => exact (abs_signedValue_le (n := 15) c.c21).trans hle
  | c30 => exact (abs_signedValue_le (n := 15) c.c30).trans hle

/-- Every coefficient is in the range of exact conversion. -/
theorem abs_coefValues_le_exact (c : Coefs) (k : CalFn) : |(coefValues c).get k| ≤ 2 ^ 24 :=
  (abs_coefValues_le c k).trans (by norm_num)

/-- Every raw value is in the range of exact conversion. -/
theorem abs_raw_le_exact (v : BitVec 24) : |signedValue v| ≤ 2 ^ 24 :=
  (abs_signedValue_le (n := 23) v).trans (by norm_num)

/-- Settles O30: an integer up to `2^24` is representable, and the registers' ranges are within that. -/
theorem conversionIsExact : Obligations.ConversionIsExact := by
  unfold Obligations.ConversionIsExact
  refine ⟨fun fmt v hv => (standsFor_i2f fmt hv).number, fun fmt c k => ⟨abs_coefValues_le c k, ?_⟩,
    fun fmt v => ⟨abs_signedValue_le (n := 23) v, ?_⟩⟩
  · exact (standsFor_i2f fmt (abs_coefValues_le_exact c k)).number
  · exact (standsFor_i2f fmt (abs_raw_le_exact v)).number

/-! ### Scaling -/

theorem kT_eq (fmt : Fmt) : kT fmt = .num 524288 := by
  rw [kT, i2f_eq fmt (by decide)]
  simp [Config.kT]

theorem kP_eq (fmt : Fmt) : kP fmt = .num 1040384 := by
  rw [kP, i2f_eq fmt (by decide)]
  simp [Config.kP]

@[simp] theorem tScaled_zero (fmt : Fmt) : tScaled fmt 0 = .zero false := by
  simp [tScaled, kT_eq, fdiv, FVal.neg]

@[simp] theorem pScaled_zero (fmt : Fmt) : pScaled fmt 0 = .zero false := by
  simp [pScaled, kP_eq, fdiv, FVal.neg]

@[simp] theorem pScaled_kP (fmt : Fmt) : pScaled fmt 1040384 = .num 1 := by
  have hone : roundF fmt 1 = .num 1 := by simpa [i2f] using i2f_eq fmt (v := 1) (by decide)
  rw [pScaled, i2f_eq fmt (by decide), kP_eq]
  simp [fdiv, hone]

/-- The division by `KT = 2^19` only changes the exponent (42_compensation_pipeline.md R164). -/
theorem tScaled_number (fmt : Fmt) {v : Int} (hv : |v| ≤ 2 ^ 24) :
    (tScaled fmt v).number = some ((v : ℚ) / 2 ^ 19) := by
  have hshift : (v : ℚ) / 524288 = v * 2 ^ (-19 : Int) := by rw [div_eq_mul_inv]; norm_num
  have hrep := representable_int_mul_zpow fmt hv (by norm_num : (-149 : Int) ≤ -19) (by norm_num)
  rw [tScaled, kT_eq, fdiv_number (standsFor_i2f fmt hv).number, hshift, (standsFor_roundF hrep).number, ← hshift]
  norm_num

/-- Settles O31: the quotient is representable, and the range is that of the register. -/
theorem temperatureScalingIsExact : Obligations.TemperatureScalingIsExact := by
  unfold Obligations.TemperatureScalingIsExact
  intro fmt traw ts
  obtain ⟨hlow, hhigh⟩ : (-(2 ^ 23) : Int) ≤ signedValue traw ∧ signedValue traw < 2 ^ 23 := by
    simpa [inRange] using inRange_signedValue (n := 24) (by norm_num) traw
  have hlow' : (-(2 ^ 23) : ℚ) ≤ signedValue traw := by exact_mod_cast hlow
  have hhigh' : (signedValue traw : ℚ) < 2 ^ 23 := by exact_mod_cast hhigh
  refine ⟨tScaled_number fmt (abs_raw_le_exact traw), ?_, ?_, fun hne => ?_⟩
  · rw [le_div_iff₀ (by positivity)]
    linarith
  · rw [div_lt_iff₀ (by positivity)]
    linarith
  · have hone : (1 : ℚ) ≤ |(signedValue traw : ℚ)| := by exact_mod_cast Int.one_le_abs hne
    rw [abs_div, abs_of_pos (by positivity : (0 : ℚ) < 2 ^ 19)]
    exact div_le_div_of_nonneg_right hone (by positivity)

/-! ### Zero and one as operands -/

theorem fmul_zero_zero (fmt : Fmt) (s t : Bool) : fmul fmt (.zero s) (.zero t) = .zero (s ^^ t) := rfl

theorem fadd_zero_zero (fmt : Fmt) (s t : Bool) : fadd fmt (.zero s) (.zero t) = .zero (s && t) := rfl

theorem exactProduct_zero_zero (s t : Bool) : exactProduct (.zero s) (.zero t) = .zero (s ^^ t) := rfl

theorem neg_num_one : (FVal.num 1).neg = false := by
  simp [FVal.neg, not_lt.2 (zero_le_one (α := ℚ))]

theorem fmul_one_zero (fmt : Fmt) (s : Bool) : fmul fmt (.num 1) (.zero s) = .zero s := by
  simp [fmul, neg_num_one]

theorem fmul_zero_one (fmt : Fmt) (s : Bool) : fmul fmt (.zero s) (.num 1) = .zero s := by
  simp [fmul, neg_num_one]

theorem exactProduct_one_zero (s : Bool) : exactProduct (.num 1) (.zero s) = .zero s := by
  simp [exactProduct, neg_num_one]

section
variable (fmt : Fmt) {v : Int} (hv : |v| ≤ 2 ^ 24)
include hv

theorem fmul_zero_i2f (s : Bool) : fmul fmt (.zero s) (i2f fmt v) = .zero (s ^^ (i2f fmt v).neg) := by
  rw [fmul_eq (.zero s) (standsFor_i2f fmt hv)]
  simp [FVal.neg]

theorem exactProduct_zero_i2f (s : Bool) : exactProduct (.zero s) (i2f fmt v) = .zero (s ^^ (i2f fmt v).neg) := by
  rw [exactProduct_eq (.zero s) (standsFor_i2f fmt hv)]
  simp [FVal.neg]

theorem exactProduct_one_i2f : exactProduct (.num 1) (i2f fmt v) = i2f fmt v := by
  rw [i2f_eq fmt hv]
  split_ifs with h
  · exact exactProduct_one_zero false
  · simp [exactProduct]

theorem fmul_one_i2f : fmul fmt (.num 1) (i2f fmt v) = i2f fmt v := by
  rw [i2f_eq fmt hv]
  split_ifs with h
  · exact fmul_one_zero fmt false
  · simpa [fmul, i2f, h] using i2f_eq fmt hv

/-- A converted integer plus a zero is that integer: `+0` and a zero of either sign give `+0`. -/
theorem fadd_i2f_zero (s : Bool) : fadd fmt (i2f fmt v) (.zero s) = i2f fmt v := by
  rw [i2f_eq fmt hv]
  split_ifs with h
  · simp [fadd]
  · simpa [fadd, i2f, h] using i2f_eq fmt hv

theorem fadd_zero_i2f (s : Bool) : fadd fmt (.zero s) (i2f fmt v) = i2f fmt v := by
  rw [fadd_comm (.zero s) (standsFor_i2f fmt hv), fadd_i2f_zero fmt hv]

end

/-! ### The pipeline with both raw values zero

In the evaluations below `simp` keeps the bound spelled `2 ^ 24`, as the lemmas on converted integers ask for it. -/

/-- What is said of every index is said of every coefficient. -/
theorem CoefVals.forall_get {P : Int → Prop} {v : CoefVals} (h : ∀ k, P (v.get k)) :
    P v.c00 ∧ P v.c10 ∧ P v.c01 ∧ P v.c11 ∧ P v.c20 ∧ P v.c21 ∧ P v.c30 :=
  ⟨h .c00, h .c10, h .c01, h .c11, h .c20, h .c21, h .c30⟩

section
variable (fmt : Fmt) {v : CoefVals} (hv : ∀ k, |v.get k| ≤ 2 ^ 24)
include hv

theorem traceSeparate_zero : traceSeparate fmt v 0 0 =
    { ts := .zero false, ps := .zero false
      a1 := .zero (i2f fmt v.c30).neg, a2 := i2f fmt v.c20
      a3 := .zero (i2f fmt v.c20).neg, a4 := i2f fmt v.c10
      a5 := .zero (i2f fmt v.c10).neg, s1 := i2f fmt v.c00
      b1 := .zero (i2f fmt v.c01).neg, s2 := i2f fmt v.c00
      d1 := .zero (i2f fmt v.c21).neg, d2 := i2f fmt v.c11
      d3 := .zero false, d4 := .zero (i2f fmt v.c11).neg, s3 := i2f fmt v.c00 } := by
  obtain ⟨h00, h10, h01, h11, h20, h21, h30⟩ := CoefVals.forall_get (P := fun c => |c| ≤ 2 ^ 24) hv
  simp [traceSeparate, fmul_zero_i2f, fadd_i2f_zero, fmul_zero_zero, h00, h10, h01, h11, h20, h21, h30,
    -Int.reducePow]

theorem traceFused_zero : traceFused fmt v 0 0 =
    { ts := .zero false, ps := .zero false
      a2 := i2f fmt v.c20, a4 := i2f fmt v.c10, s1 := i2f fmt v.c00, s2 := i2f fmt v.c00
      d2 := i2f fmt v.c11, d3 := .zero false, s3 := i2f fmt v.c00 } := by
  obtain ⟨h00, h10, h01, h11, h20, h21, h30⟩ := CoefVals.forall_get (P := fun c => |c| ≤ 2 ^ 24) hv
  simp [traceFused, fma, exactProduct_zero_i2f, fadd_zero_i2f, fmul_zero_zero, h00, h10, h01, h11, h20, h21, h30,
    -Int.reducePow]

theorem comp_zero (m : MacMode) : comp ⟨fmt, m⟩ v 0 0 = i2f fmt v.c00 := by
  cases m with
  | separate => simp [comp, traceSeparate_zero fmt hv]
  | fused => simp [comp, traceFused_zero fmt hv]

end

/-- Settles O33, by the values of the two evaluations at zero: the products are zeros, the sums coefficients. -/
theorem onlyC00SurvivesAtZero : Obligations.OnlyC00SurvivesAtZero := by
  unfold Obligations.OnlyC00SurvivesAtZero
  rintro ⟨fmt, m⟩ c v sep fus
  have hv : ∀ k, |v.get k| ≤ 2 ^ 24 := abs_coefValues_le_exact c
  have hcomp : comp ⟨fmt, m⟩ v 0 0 = i2f fmt v.c00 := comp_zero fmt hv m
  have hsep : sep = _ := traceSeparate_zero fmt hv
  have hfus : fus = _ := traceFused_zero fmt hv
  refine ⟨hcomp, ?_, tScaled_zero fmt, pScaled_zero fmt, ?_, ?_, ?_⟩
  · rw [hcomp]
    exact (standsFor_i2f fmt (hv .c00)).number
  · simp [hsep, hfus]
  · simp [hsep]
  · simp [hfus]

/-! ### The linear term at `KP` -/

section
variable (fmt : Fmt) {c10 : Int} (hc : |c10| ≤ 2 ^ 24)
include hc

theorem traceSeparate_linear : (traceSeparate fmt ⟨0, c10, 0, 0, 0, 0, 0⟩ 0 1040384).s3 = i2f fmt c10 := by
  simp [traceSeparate, fmul_one_zero, fmul_zero_one, fmul_one_i2f, fadd_i2f_zero, fadd_zero_i2f, fmul_zero_zero,
    fadd_zero_zero, hc, -Int.reducePow]

theorem traceFused_linear : (traceFused fmt ⟨0, c10, 0, 0, 0, 0, 0⟩ 0 1040384).s3 = i2f fmt c10 := by
  simp [traceFused, fma, fmul_zero_one, exactProduct_one_zero, exactProduct_one_i2f, exactProduct_zero_zero,
    fadd_i2f_zero, fadd_zero_i2f, fadd_zero_zero, hc, -Int.reducePow]

theorem comp_linear (m : MacMode) : comp ⟨fmt, m⟩ ⟨0, c10, 0, 0, 0, 0, 0⟩ 0 1040384 = i2f fmt c10 := by
  cases m with
  | separate => exact traceSeparate_linear fmt hc
  | fused => exact traceFused_linear fmt hc

end

/-- Settles O34: a factor of one and a zero summand keep the converted `c10`. -/
theorem linearTermIsTheIdentityAtKP : Obligations.LinearTermIsTheIdentityAtKP := by
  unfold Obligations.LinearTermIsTheIdentityAtKP
  rintro ⟨fmt, m⟩ c10 hc
  refine ⟨pScaled_kP fmt, comp_linear fmt hc m, ?_⟩
  rw [comp_linear fmt hc m]
  exact (standsFor_i2f fmt hc).number

/-! ### COMP -/

/-- `COMP` in `READY` with both samples fresh (42_compensation_pipeline.md R176). -/
theorem exec_comp_fresh {s : State} {c : Coefs} {t p : BitVec 24} (hp : s.phase = .ready) (hpf : s.pFresh = true)
    (htf : s.tFresh = true) (hc : s.coef = some c) (ht : s.tRaw = some t) (hr : s.pRaw = some p) :
    exec .comp s = .next (complete (commitPressure (pressureOf s.params c t p) s)) := by
  simp [exec, execComp, readCoefs, calValid, readTRaw, readPRaw, hp, hpf, htf, hc, ht, hr]

/-- Settles O27: the two refusals by phase, the stale one, and the commit, which clears the guards of the samples. -/
theorem compStoresThePressure : Obligations.CompStoresThePressure := by
  unfold Obligations.CompStoresThePressure
  intro s
  refine ⟨fun hp => exec_refused ?_, fun hp => exec_refused ?_, exec_comp_stale, ?_⟩
  · simp [refusalCode, hp]
  · simp [refusalCode, hp]
  · intro c traw praw hp hpf htf hc ht hr
    exact ⟨_, exec_comp_fresh hp hpf htf hc ht hr, rfl, readPRaw_eq_none rfl, readTRaw_eq_none rfl⟩

/-- A `COMP` that ends with OK computed the pressure of the coefficients and raw values it found. -/
theorem Effect.computed_of_ok {s t : State} (h : Effect .comp s t) (hok : t.res = .ok) :
    ∃ c traw praw, s.coef = some c ∧ s.tRaw = some traw ∧ s.pRaw = some praw ∧
      t.pressure = some (pressureOf s.params c traw praw) := by
  generalize hi : Instr.comp = i at h
  cases h with
  | computed _ c traw praw _ _ _ hc ht hp => exact ⟨c, traw, praw, hc, ht, hp, rfl⟩
  | refused _ _ code hcode => exact absurd hok (refusalCode_some hcode).1
  | readFailed who => exact absurd hi.symm who.instr_ne_comp
  | readReset who => exact absurd hi.symm who.instr_ne_comp
  | extracted _ _ _ hext =>
    subst hi
    simp [isCommand] at hext
  | nop | loaded | readPrs | readTmp => cases hi

/-- Settles O28: both pressures are `pressureOf` of the same arguments. -/
theorem compIsAFunctionOfItsArguments : Obligations.CompIsAFunctionOfItsArguments := by
  unfold Obligations.CompIsAFunctionOfItsArguments
  intro s s' t t' h h' hok hok' hparams hcoef htraw hpraw
  obtain ⟨c, traw, praw, hc, ht, hp, hres⟩ := (exec_effect h).computed_of_ok hok
  obtain ⟨c', traw', praw', hc', ht', hp', hres'⟩ := (exec_effect h').computed_of_ok hok'
  obtain rfl : c = c' := Option.some.inj (by rw [← hc, hcoef, hc'])
  obtain rfl : traw = traw' := Option.some.inj (by rw [← ht, htraw, ht'])
  obtain rfl : praw = praw' := Option.some.inj (by rw [← hp, hpraw, hp'])
  exact ⟨by simp [hres], by rw [hres, hres', hparams]⟩

end Sys2Proof.Machine
end

section
/-! PROOFS of the statements about control (43_control.md): the phase transitions, the acceptance matrix and `NOP`. -/

namespace Sys2Proof.Machine

/-! ### The instruction presented -/

theorem step_present {s : State} {w : CodeWord} {rest : List Input} {i : Instr}
    (hin : s.env.inputs = .present w :: rest) (hw : decode w = .ok i) : step s = exec i (takeInput rest s) := by
  simp [step, dispatch, hin, hw]

/-! ### The phase -/

/-- The two ends of the transition table's row for `CAL_LOAD` in `UNLOADED` (43_control.md R195). -/
def LoadEnds (t : State) : Prop := (t.phase = .ready ∧ t.res = .ok) ∨ (t.phase = .failed ∧ t.res = .eTransport)

theorem LoadEnds.phase_ne_unloaded {t : State} (h : LoadEnds t) : t.phase ≠ .unloaded := by
  rcases h with ⟨hp, -⟩ | ⟨hp, -⟩ <;> simp [hp]

/-- Short of a reset, `CAL_LOAD` in `UNLOADED` has one of these ends. -/
theorem Effect.loadEnds {s t : State} (h : Effect .calLoad s t) (hp : s.phase = .unloaded) (hr : noResetListed s) :
    LoadEnds t := by
  generalize hi : Instr.calLoad = i at h
  cases h with
  | loaded => exact .inl ⟨rfl, rfl⟩
  | readFailed who =>
    obtain rfl : Reader.calLoad = who := Reader.instr_injective hi
    exact .inr ⟨rfl, rfl⟩
  | readReset _ _ _ hm => exact absurd hm hr
  | refused _ _ _ hcode =>
    subst hi
    simp [refusalCode, hp] at hcode
  | extracted _ _ _ hext =>
    subst hi
    simp [isCommand] at hext
  | nop | readPrs | readTmp | computed => cases hi

/-- Short of a reset, the one instruction that changes the phase is a `CAL_LOAD` in `UNLOADED`. -/
theorem Effect.phase_eq_or_calLoad {i : Instr} {s t : State} (h : Effect i s t) (hr : noResetListed s) :
    t.phase = s.phase ∨ (i = .calLoad ∧ s.phase = .unloaded) := by
  cases h with
  | loaded _ _ hp => exact .inr ⟨rfl, hp⟩
  | readFailed who _ _ hc =>
    cases who with
    | calLoad =>
      cases hp : s.phase <;> simp [Reader.instr, refusalCode, hp] at hc
      exact .inr ⟨rfl, rfl⟩
    | rdPrs | rdTmp => exact .inl rfl
  | readReset _ _ _ hm => exact absurd hm hr
  | nop | refused | readPrs | readTmp | computed | extracted => exact .inl rfl

/-- A step that presents `CAL_LOAD` in `UNLOADED` ends as the transition table says (43_control.md R195). -/
theorem step_calLoad_loadEnds {s t : State} {rest : List Input} (h : step s = .next t)
    (hin : s.env.inputs = .present (.cmd 0b001#3) :: rest) (hp : s.phase = .unloaded) (hr : noResetListed s) :
    LoadEnds t := by
  rw [step_present hin rfl] at h
  exact (exec_effect h).loadEnds hp hr

/-- Short of a reset, a step that presents no `CAL_LOAD` in `UNLOADED` keeps the phase. -/
theorem step_phase_eq_or_calLoad {s t : State} (h : step s = .next t) (hnr : nextIsNotReset s)
    (hr : noResetListed s) :
    t.phase = s.phase ∨ (s.phase = .unloaded ∧ ∃ rest, s.env.inputs = .present (.cmd 0b001#3) :: rest) := by
  rcases step_block_cases h with ⟨-, hphase, -⟩ | ⟨rest, hin, -⟩ | ⟨rest, rfl⟩ | ⟨w, rest, i, hin, hw, hrun⟩
  · exact .inl hphase
  · exact absurd hin (hnr rest)
  · exact .inl rfl
  · rcases hrun.phase_eq_or_calLoad hr with hphase | ⟨rfl, hp⟩
    · exact .inl hphase
    · rw [decode_calLoad hw] at hin
      exact .inr ⟨hp, rest, hin⟩

/-- Settles O41: every step but a `CAL_LOAD` in `UNLOADED` keeps the phase, and that one has the two ends of its row. -/
theorem phaseTransitions : Obligations.PhaseTransitions := by
  unfold Obligations.PhaseTransitions
  intro s t h
  constructor
  · intro rest hin
    obtain rfl := Host.Outcome.next.inj ((step_reset hin).symm.trans h)
    simp
  · intro hnr hr
    have hload : ∀ rest, s.env.inputs = .present (.cmd 0b001#3) :: rest → s.phase = .unloaded → LoadEnds t :=
      fun _ hin hp => step_calLoad_loadEnds h hin hp hr
    have hleaves : s.phase = .unloaded → (∃ rest, s.env.inputs = .present (.cmd 0b001#3) :: rest) →
        t.phase ≠ .unloaded := fun hp ⟨rest, hin⟩ => (hload rest hin hp).phase_ne_unloaded
    rcases step_phase_eq_or_calLoad h hnr hr with hphase | ⟨hp, rest, hin⟩
    · exact ⟨hphase.trans, hphase.trans, fun hp => .inl (hphase.trans hp), hleaves⟩
    · exact ⟨by simp [hp], by simp [hp], fun _ => .inr ⟨rest, hin, hload rest hin hp⟩, hleaves⟩

/-! ### Acceptance -/

/-- Short of a reset, an accepted command other than `NOP` ends with OK or with the exception. -/
theorem Effect.res_of_accepted {i : Instr} {s t : State} (h : Effect i s t) (hi : isCommand i = true)
    (hnop : i ≠ .nop) (hc : refusalCode i s = none) (hr : noResetListed s) : t.res = .ok ∨ t.res = .eTransport := by
  cases h with
  | nop => exact absurd rfl hnop
  | refused _ _ _ hcode => simp [hcode] at hc
  | loaded | readPrs | readTmp | computed => exact .inl rfl
  | readFailed who => exact .inr (raiseTransport_res who _)
  | readReset _ _ _ hm => exact absurd hm hr
  | extracted _ _ _ hext => simp [hext] at hi

/-- Settles O39: a cell that refuses is `exec_refused`, a reserved code `dispatch_reserved`; a cell that runs is `NOP`,
or ends as `Effect.res_of_accepted` says. -/
theorem acceptanceMatrix : Obligations.AcceptanceMatrix := by
  unfold Obligations.AcceptanceMatrix
  refine ⟨fun i s code => exec_refused, fun i s t hi hc h hr => ?_, dispatch_reserved⟩
  by_cases hnop : i = .nop
  · subst hnop
    exact .inl ⟨rfl, (Host.Outcome.next.inj h).symm⟩
  · exact .inr ⟨hnop, (exec_effect h).res_of_accepted hi hnop hc hr⟩

/-! ### NOP -/

theorem exec_nop (s : State) : exec .nop s = .next s := rfl

/-- Settles O15: a step that presents `000` is `exec_nop` once the input is taken. -/
theorem nopChangesNothing : Obligations.NopChangesNothing := by
  unfold Obligations.NopChangesNothing
  refine ⟨exec_nop, fun s rest hin => ⟨takeInput rest s, ?_, ?_, ?_⟩⟩
  · rw [step_present hin rfl, exec_nop]
  · simp [sameBlock]
  · simp

end Sys2Proof.Machine
end

section
/-! PROOFS of the statements about exceptions (60_exceptions.md): precision, and the order of the conditions. -/

namespace Sys2Proof.Machine

/-! ### Precision -/

@[simp] theorem raiseTransport_pRaw (who : Reader) (s : State) : (raiseTransport who s).pRaw = s.pRaw := by
  cases who <;> rfl

@[simp] theorem raiseTransport_tRaw (who : Reader) (s : State) : (raiseTransport who s).tRaw = s.tRaw := by
  cases who <;> rfl

@[simp] theorem raiseTransport_pressure (who : Reader) (s : State) :
    (raiseTransport who s).pressure = s.pressure := by
  cases who <;> rfl

/-- Short of a reset, what writes a data register is a commit, and a commit ends with OK. -/
theorem Effect.data_eq_of_not_ok {i : Instr} {s t : State} (h : Effect i s t) (hr : noResetListed s)
    (hok : t.res ≠ .ok) :
    t.coef = s.coef ∧ t.pRaw = s.pRaw ∧ t.tRaw = s.tRaw ∧ t.pressure = s.pressure := by
  cases h with
  | loaded | readPrs | readTmp | computed => exact absurd (complete_res _) hok
  | readReset _ _ _ hm => exact absurd hm hr
  | nop | refused | readFailed | extracted => simp

/-- Settles O46, by the cases of an instruction's effect. -/
theorem exceptionsArePrecise : Obligations.ExceptionsArePrecise := by
  unfold Obligations.ExceptionsArePrecise
  exact fun _ _ _ h hr hok => (exec_effect h).data_eq_of_not_ok hr hok

/-! ### The order of the conditions -/

/-- In `FAILED` the phase alone refuses the four commands that do something (60_exceptions.md R218, second place). -/
theorem refusalCode_failed {i : Instr} {s : State} (hp : s.phase = .failed)
    (hi : i = .calLoad ∨ i = .rdPrs ∨ i = .rdTmp ∨ i = .comp) : refusalCode i s = some .eFatal := by
  rcases hi with rfl | rfl | rfl | rfl <;> simp [refusalCode, hp]

theorem refusalCode_calLoad_ready {s : State} (hp : s.phase = .ready) : refusalCode .calLoad s = some .eLocked := by
  simp [refusalCode, hp]

theorem refusalCode_comp_unloaded {s : State} (hp : s.phase = .unloaded) : refusalCode .comp s = some .eNoCal := by
  simp [refusalCode, hp]

/-- Settles O40: the conditions before the reads are cells of the acceptance matrix (`exec_refused`), and the reads end
at the first that fails (`exec_reader_failed`). -/
theorem firstConditionIsReported : Obligations.FirstConditionIsReported := by
  unfold Obligations.FirstConditionIsReported
  refine ⟨dispatch_reserved, fun s i hp hi => exec_refused (refusalCode_failed hp hi),
    fun s hp => exec_refused (refusalCode_calLoad_ready hp), fun s hp => exec_refused (refusalCode_comp_unloaded hp),
    fun s => exec_comp_stale, fun who s got rest hc hl h => ?_⟩
  exact ⟨_, exec_reader_failed hc hl h, raiseTransport_res who _, by simp, by simp⟩

end Sys2Proof.Machine
end

section
/-! PROOFS of the statements about the encodings of instructions and result codes (30_encoding.md, 60_exceptions.md),
and about sign extension (00_scope.md). -/

namespace Sys2Proof.Machine

/-! ### Instructions and their words -/

theorem encode_wellFormed (i : Instr) : (encode i).wellFormed = true := by
  cases i <;> rfl

/-- The operand bytes of an extraction function are found where the encoder puts them, and no other byte is in their
place (30_encoding.md R83, R84). -/
theorem decode_encode (i : Instr) : decode (encode i) = .ok i := by
  cases i with
  | nop | calLoad | rdPrs | rdTmp | comp => rfl
  | extPraw | extTraw => simp [encode, decode, decodeRaw, rawByte_rawImage]
  | _ => simp [encode, decode, decodeCal, calByte_or, calByte_calPlace]

/-- Settles O2, constructor by constructor: the bytes that are placed in an image are read back from it. -/
theorem decodeOfEncode : Obligations.DecodeOfEncode := by
  unfold Obligations.DecodeOfEncode
  exact fun i _ => ⟨encode_wellFormed i, decode_encode i⟩

/-- Settles O1: the words of the tables, decoded. -/
theorem tableWordsDecode : Obligations.TableWordsDecode := by
  unfold Obligations.TableWordsDecode
  decide

/-- Of the eight command codes only the last three have no instruction (30_encoding.md R81, R82). -/
theorem decode_cmd (code : BitVec 3) :
    (∃ i, decode (.cmd code) = .ok i ∧ code.toNat ≤ 4) ∨
    (decode (.cmd code) = .error (.reservedCommand code) ∧ 4 < code.toNat) := by
  simp only [decode, decodeCmd]
  split
  case h_6 h0 h1 h2 h3 h4 =>
    rw [imp_false] at h0 h1 h2 h3 h4
    exact .inr ⟨rfl, by omega⟩
  all_goals exact .inl ⟨_, rfl, by omega⟩

theorem lt_toNat_iff_reserved (code : BitVec 3) :
    4 < code.toNat ↔ code = 0b101#3 ∨ code = 0b110#3 ∨ code = 0b111#3 := by
  revert code
  decide

/-- Settles O3: an image always has an instruction, a command code unless it is reserved. -/
theorem reservedCodesHaveNoInstruction : Obligations.ReservedCodesHaveNoInstruction := by
  unfold Obligations.ReservedCodesHaveNoInstruction
  intro w
  cases w with
  | cmd code =>
    have hres := lt_toNat_iff_reserved code
    rcases decode_cmd code with ⟨i, hd, hle⟩ | ⟨hd, hlt⟩
    · simp [hd, CodeWord.wellFormed, hle, ← hres]
    · simp [hd, CodeWord.wellFormed, hlt, ← hres]
  | cal15 | raw3 => simp [decode, CodeWord.wellFormed]

/-! ### Result codes -/

theorem resBits_injective : Function.Injective resBits := by
  intro r r' h
  cases r <;> cases r' <;> simp [resBits] at h ⊢

/-- Settles O52: the table, read off; two codes with one pattern are one code. -/
theorem resultCodesAreDistinct : Obligations.ResultCodesAreDistinct := by
  unfold Obligations.ResultCodesAreDistinct
  refine ⟨⟨rfl, rfl, rfl, rfl, rfl, rfl, rfl⟩, fun r r' => ⟨fun h => resBits_injective h, ?_⟩⟩
  cases r <;> decide

/-! ### Sign extension -/

/-- Settles O7: the signed value is the two's-complement value of the pattern, negative with its top bit. -/
theorem signExtensionLaw : Obligations.SignExtensionLaw := by
  unfold Obligations.SignExtensionLaw
  intro n u hn
  obtain ⟨hlow, hhigh⟩ : -(2 ^ (n - 1) : Int) ≤ signedValue u ∧ signedValue u < 2 ^ (n - 1) := by
    simpa [inRange] using inRange_signedValue hn u
  refine ⟨by simp [signedValue, sext], ?_, hlow, by omega⟩
  rw [← BitVec.msb_eq_getLsbD_last, signedValue_eq_toInt hn, BitVec.msb_eq_toInt, decide_eq_true_iff]

end Sys2Proof.Machine
end

section
/-! PROOFS of the statements about good states: the invariant, where a step can stop, and the guarded outputs. -/

namespace Sys2Proof.Machine

/-! ### The guards -/

theorem coefGuardHolds_iff {s : State} :
    coefGuardHolds s = true ↔ (s.coef.isSome = true ↔ s.phase = .ready) := by
  rw [coefGuardHolds, beq_iff_eq, Bool.eq_iff_iff, beq_iff_eq]

theorem sampleGuardsHold_iff {s : State} :
    sampleGuardsHold s = true ↔
      (s.pFresh = true → s.pRaw.isSome = true) ∧ (s.tFresh = true → s.tRaw.isSome = true) := by
  cases hp : s.pFresh <;> cases ht : s.tFresh <;> simp [sampleGuardsHold, hp, ht]

theorem pressureGuardHolds_iff {s : State} :
    pressureGuardHolds s = true ↔
      s.pressure.isSome = s.pressureValid ∧ ∀ v, s.pressure = some v → v.fmt = s.params.fmt := by
  cases hp : s.pressure <;> simp [pressureGuardHolds, hp]

/-- The invariant, guard by guard. -/
theorem good_iff {s : State} :
    Good s = true ↔
      (s.coef.isSome = true ↔ s.phase = .ready) ∧
      ((s.pFresh = true → s.pRaw.isSome = true) ∧ (s.tFresh = true → s.tRaw.isSome = true)) ∧
      (s.pressure.isSome = s.pressureValid ∧ ∀ v, s.pressure = some v → v.fmt = s.params.fmt) ∧
      Memory.wf s.env.device = true := by
  simp only [Good, Bool.and_eq_true, coefGuardHolds_iff, sampleGuardsHold_iff, pressureGuardHolds_iff, and_assoc]

/-- A reset block is good in every canonical world outside (10_state.md R38). -/
theorem good_resetWith {params : Params} {e : Env} (h : Memory.wf e.device = true) :
    Good (State.resetWith params e) = true :=
  good_iff.2 (by simp [h])

/-- Settles O55: a reset block holds no value and no flag is set, and `State.reset` is one in an empty world. -/
theorem resetIsGood : Obligations.ResetIsGood := by
  unfold Obligations.ResetIsGood
  exact ⟨good_resetWith wf_reset, fun _ _ => good_resetWith⟩

/-- The invariant speaks of the block and of the device's contents only. -/
theorem good_of_sameBlock {s t : State} (hg : Good s = true) (hb : sameBlock s t)
    (hwf : Memory.wf t.env.device = true) : Good t = true := by
  obtain ⟨hparams, hphase, hcoef, hpraw, htraw, hpf, htf, hpressure, hvalid, -⟩ := hb
  obtain ⟨hc, hs, hp, -⟩ := good_iff.1 hg
  refine good_iff.2 ⟨?_, ?_, ?_, hwf⟩
  · rwa [hcoef, hphase]
  · rwa [hpraw, htraw, hpf, htf]
  · rwa [hpressure, hvalid, hparams]

theorem wf_device_of_good {s : State} (hg : Good s = true) : Memory.wf s.env.device = true := by
  obtain ⟨-, -, -, hwf⟩ := good_iff.1 hg
  exact hwf

@[simp] theorem good_refuse (code : ResultCode) (s : State) : Good (refuse code s) = Good s := rfl

@[simp] theorem good_takeInput (rest : List Input) (s : State) : Good (takeInput rest s) = Good s := rfl

/-- The exception closes guards and opens none: `FAILED` is entered from `UNLOADED`, and a flag is cleared. -/
theorem good_raiseTransport {who : Reader} {s : State} (hg : Good s = true) (hc : refusalCode who.instr s = none)
    (answers : List (Option Byte)) :
    Good (raiseTransport who { s with env := afterReads who.base answers s.env }) = true := by
  obtain ⟨hcoef, ⟨hp, ht⟩, hpressure, hwf⟩ := good_iff.1 hg
  refine good_iff.2 ?_
  cases who with
  | calLoad =>
    cases hphase : s.phase <;> simp [Reader.instr, refusalCode, hphase] at hc
    have hnone : s.coef = none := by simpa [hphase] using hcoef
    exact ⟨by simp [hnone], ⟨hp, ht⟩, hpressure, hwf⟩
  | rdPrs => exact ⟨hcoef, ⟨by simp, ht⟩, hpressure, hwf⟩
  | rdTmp => exact ⟨hcoef, ⟨hp, by simp⟩, hpressure, hwf⟩

/-- Every instruction keeps the invariant: a commit fills the register whose guard it opens. -/
theorem Effect.good {i : Instr} {s t : State} (h : Effect i s t) (hg : Good s = true) : Good t = true := by
  obtain ⟨hcoef, ⟨hp, ht⟩, hpressure, hwf⟩ := good_iff.1 hg
  cases h with
  | nop | refused | extracted => exact hg
  | loaded => exact good_iff.2 ⟨by simp, ⟨hp, ht⟩, hpressure, hwf⟩
  | readPrs => exact good_iff.2 ⟨hcoef, ⟨by simp, ht⟩, hpressure, hwf⟩
  | readTmp => exact good_iff.2 ⟨hcoef, ⟨hp, by simp⟩, hpressure, hwf⟩
  | readFailed _ _ _ hc => exact good_raiseTransport hg hc _
  | readReset => exact good_resetWith hwf
  | computed => exact good_iff.2 ⟨hcoef, by simp, by simp [pressureOf, toBits_fmt], hwf⟩

theorem wf_hostWrite (reg : ConfigReg) (v : Byte) (ok : Bool) {s : State} (hwf : Memory.wf s.env.device = true) :
    Memory.wf (hostWrite reg v ok s).env.device = true := by
  cases ok with
  | false => exact wf_forget _ _ hwf
  | true => exact wf_store _ _ _ reg.addr.isLt hwf

theorem wf_deviceChange (addr : RegAddr) (v : Byte) {s : State} (hwf : Memory.wf s.env.device = true) :
    Memory.wf (deviceChange addr v s).env.device = true :=
  wf_store _ _ _ addr.isLt hwf

/-- Settles O56: an instruction keeps the invariant, reset meets it, and the acts of the host and of the device keep the
canonical form. -/
theorem stepKeepsGood : Obligations.StepKeepsGood := by
  unfold Obligations.StepKeepsGood
  intro s t hg h
  have hwf := wf_device_of_good hg
  rcases step_cases h with ⟨-, rfl⟩ | ⟨w, rest, i, -, -, hrun⟩ | ⟨w, rest, -, -, rfl⟩ | ⟨rest, -, rfl⟩ |
    ⟨reg, v, ok, rest, -, rfl⟩ | ⟨addr, v, rest, -, rfl⟩
  · exact hg
  · exact hrun.good (by simpa using hg)
  · simpa using hg
  · exact good_resetWith hwf
  · exact good_of_sameBlock hg (sameBlock_hostWrite reg v ok rest s) (wf_hostWrite reg v ok hwf)
  · exact good_of_sameBlock hg (sameBlock_deviceChange addr v rest s) (wf_deviceChange addr v hwf)

/-! ### How an instruction and a step can end -/

/-- A read that no answer ends is listed. -/
theorem never_mem_of_hangs {n : Nat} {replies : List Reply} (h : hangs n replies = true) : Reply.never ∈ replies := by
  by_contra hn
  simp [hangs_eq_false hn] at h

/-- The body of a reading command gives a next state, unless the transport never answers. -/
theorem runReads_outcome (who : Reader) (commit : List Byte → State → State) (s : State) :
    (∃ t, runReads who commit s = .next t) ∨
    (Reply.never ∈ s.env.replies ∧ runReads who commit s = .fault .transportNeverAnswers) := by
  rcases runReads_cases (r := runReads who commit s) rfl with ⟨hh, h⟩ | ⟨_, _, h⟩ | ⟨_, _, h⟩ | ⟨_, _, _, h⟩
  · exact .inr ⟨never_mem_of_hangs hh, h⟩
  all_goals exact .inl ⟨_, h⟩

/-- A good state has a value in every register that an accepted `COMP` reads (00_scope.md R12). -/
theorem exec_comp_of_good {s : State} (hg : Good s = true) : ∃ t, exec .comp s = .next t := by
  obtain ⟨hcoef, ⟨hp, ht⟩, -, -⟩ := good_iff.1 hg
  cases hc : refusalCode .comp s with
  | some code => exact ⟨_, exec_refused hc⟩
  | none =>
    obtain ⟨hphase, hpf, htf⟩ : s.phase = .ready ∧ s.pFresh = true ∧ s.tFresh = true := by
      cases hphase : s.phase <;> simp [refusalCode, hphase] at hc
      exact ⟨rfl, hc⟩
    obtain ⟨c, hsome⟩ := Option.isSome_iff_exists.1 (hcoef.2 hphase)
    obtain ⟨praw, hpraw⟩ := Option.isSome_iff_exists.1 (hp hpf)
    obtain ⟨traw, htraw⟩ := Option.isSome_iff_exists.1 (ht htf)
    exact ⟨_, exec_comp_fresh hphase hpf htf hsome htraw hpraw⟩

/-- Every instruction but `COMP` gives a next state, unless the transport never answers. -/
theorem exec_outcome {i : Instr} (s : State) (hi : i ≠ .comp) :
    (∃ t, exec i s = .next t) ∨
    (Reply.never ∈ s.env.replies ∧ exec i s = .fault .transportNeverAnswers) := by
  have hread (who : Reader) : (∃ t, exec who.instr s = .next t) ∨
      (Reply.never ∈ s.env.replies ∧ exec who.instr s = .fault .transportNeverAnswers) := by
    cases hc : refusalCode who.instr s with
    | some code => exact .inl ⟨_, exec_refused hc⟩
    | none =>
      rw [exec_reader hc]
      exact runReads_outcome who _ s
  cases i with
  | calLoad => exact hread .calLoad
  | rdPrs => exact hread .rdPrs
  | rdTmp => exact hread .rdTmp
  | comp => exact absurd rfl hi
  | _ => exact .inl ⟨_, rfl⟩

theorem exec_outcome_of_good (i : Instr) {s : State} (hg : Good s = true) :
    (∃ t, exec i s = .next t) ∨
    (Reply.never ∈ s.env.replies ∧ exec i s = .fault .transportNeverAnswers) := by
  by_cases hi : i = .comp
  · subst hi
    exact .inl (exec_comp_of_good hg)
  · exact exec_outcome s hi

theorem step_outcome_of_good {s : State} (hg : Good s = true) :
    (∃ t, step s = .next t) ∨ (Reply.never ∈ s.env.replies ∧ step s = .fault .transportNeverAnswers) := by
  unfold step
  split
  case h_2 w rest _ =>
    unfold dispatch
    split
    · exact exec_outcome_of_good _ (s := takeInput rest s) (by simpa using hg)
    · exact .inl ⟨_, rfl⟩
  all_goals exact .inl ⟨_, rfl⟩

/-- Settles O57: the two outcomes of a step from a good state, of which one is a fault and none a refusal. -/
theorem goodStatesStopOnlyAtTheTransport : Obligations.GoodStatesStopOnlyAtTheTransport := by
  unfold Obligations.GoodStatesStopOnlyAtTheTransport
  intro s hg
  rcases step_outcome_of_good hg with ⟨t, h⟩ | ⟨hnever, h⟩
  · simp [h]
  · simpa [h, everyReadAnswered] using hnever

/-- Settles O58: where no listed read is unanswered, the outcome that is left is a next state. -/
theorem everyInstructionRunsToItsEnd : Obligations.EveryInstructionRunsToItsEnd := by
  unfold Obligations.EveryInstructionRunsToItsEnd
  refine ⟨fun i s ha hg => ?_, fun i s ha hi => ?_, fun s ha hg => ?_⟩
  · exact (exec_outcome_of_good i hg).resolve_right fun h => ha h.1
  · exact (exec_outcome s hi).resolve_right fun h => ha h.1
  · exact (step_outcome_of_good hg).resolve_right fun h => ha h.1

/-! ### The guarded outputs -/

theorem readCoefs_eq_none {s : State} (h : s.phase ≠ .ready) : readCoefs s = none := by
  simp [readCoefs, calValid, h]

theorem readPressure_eq_none {s : State} (h : s.pressureValid = false) : readPressure s = none := by
  simp [readPressure, h]

/-- A register that is shut or holds no value shows none. -/
theorem guarded_none {α : Type} (show' : α → Seen) : guarded show' none = .error .noValue := rfl

theorem guarded_some {α : Type} (show' : α → Seen) (v : α) : guarded show' (some v) = .ok (show' v) := rfl

/-- Settles O54: a shut guard makes the register read as `none`; in a good state an open one stands over a value. -/
theorem guardedOutputs : Obligations.GuardedOutputs := by
  unfold Obligations.GuardedOutputs
  intro s
  refine ⟨fun hp k => ?_, fun hf => ?_, fun hf => ?_, fun hv => ?_, fun hg => ?_⟩
  · rw [observe, readCoefs_eq_none hp, guarded_none]
  · rw [observe, readPRaw_eq_none hf, guarded_none]
  · rw [observe, readTRaw_eq_none hf, guarded_none]
  · rw [observe, readPressure_eq_none hv, guarded_none]
  · obtain ⟨hcoef, ⟨hp, ht⟩, ⟨hpressure, -⟩, -⟩ := good_iff.1 hg
    refine ⟨fun hphase k => ?_, fun hf => ?_, fun hf => ?_, fun hv => ?_⟩
    · obtain ⟨c, hc⟩ := Option.isSome_iff_exists.1 (hcoef.2 hphase)
      exact ⟨c, hc, by simp [observe, readCoefs, calValid, hphase, hc, guarded_some]⟩
    · obtain ⟨v, hv⟩ := Option.isSome_iff_exists.1 (hp hf)
      exact ⟨v, hv, by simp [observe, readPRaw, hf, hv, guarded_some]⟩
    · obtain ⟨v, hv⟩ := Option.isSome_iff_exists.1 (ht hf)
      exact ⟨v, hv, by simp [observe, readTRaw, hf, hv, guarded_some]⟩
    · obtain ⟨v, hs⟩ := Option.isSome_iff_exists.1 (hpressure.trans hv)
      exact ⟨v, hs, by simp [observe, readPressure, hv, hs, guarded_some]⟩

end Sys2Proof.Machine
end

section
/-! PROOFS of the statements about one step: the word presented, and the acts of the host and of the device
(43_control.md, 70_reset_and_hazards.md). -/

namespace Sys2Proof.Machine

/-! ### The step on what is presented -/

/-- Settles O8: a step is `exec` of the word presented, a word of the table included; without input it is a wait. -/
theorem stepRunsThePresentedInstruction : Obligations.StepRunsThePresentedInstruction := by
  unfold Obligations.StepRunsThePresentedInstruction
  refine ⟨fun s word i rest hin hw => step_present hin hw, fun s hin => by simp [step, hin], ?_⟩
  intro s nbits w i h
  unfold decodeTableWord at h
  cases hword : tableWord nbits w with
  | none => simp [hword] at h
  | some word =>
    cases hw : decode word with
    | error => simp [hword, hw] at h
    | ok j =>
      obtain rfl : j = i := by simpa [hword, hw] using h
      rw [State.withFetchWord, hword, step_present rfl hw]
      rfl

/-- Settles O9: a reserved code is refused once the input is taken. -/
theorem reservedCodeIsRefused : Obligations.ReservedCodeIsRefused := by
  unfold Obligations.ReservedCodeIsRefused
  intro s code rest hcode hin
  have hlt : 4 < code.toNat := (lt_toNat_iff_reserved code).2 hcode
  have hstep : step s = dispatch (.cmd code) (takeInput rest s) := by simp [step, hin]
  exact ⟨_, hstep.trans (dispatch_reserved _ _ hlt), rfl, rfl⟩

/-! ### The acts of the host and of the device -/

/-- Settles O13: the device's register is stored to or forgotten, and the block is not touched. -/
theorem hostWriteLeavesTheBlock : Obligations.HostWriteLeavesTheBlock := by
  unfold Obligations.HostWriteLeavesTheBlock
  intro s reg v ok rest hin
  have hstep : step s = .next (hostWrite reg v ok (takeInput rest s)) := by simp [step, hin]
  refine ⟨_, hstep, sameBlock_hostWrite reg v ok rest s, rfl, rfl, rfl, ?_, fun a ha => ?_, fun hwf => ?_⟩
  · cases ok with
    | false => exact lookup_forget_same _ _
    | true => exact lookup_store_same _ _ _
  · cases ok with
    | false => exact lookup_forget_other _ _ _ ha
    | true => exact lookup_store_other _ _ _ _ ha
  · exact wf_hostWrite reg v ok hwf

/-- Settles O14: the device's register is stored to, and the block is not touched. -/
theorem deviceChangeLeavesTheBlock : Obligations.DeviceChangeLeavesTheBlock := by
  unfold Obligations.DeviceChangeLeavesTheBlock
  intro s addr v rest hin
  have hstep : step s = .next (deviceChange addr v (takeInput rest s)) := by simp [step, hin]
  exact ⟨_, hstep, sameBlock_deviceChange addr v rest s, rfl, lookup_store_same _ _ _,
    fun a ha => lookup_store_other _ _ _ _ ha⟩

end Sys2Proof.Machine
end

section
/-! PROOFS of the statements about the reads of a command that reset cuts off, that are never answered, and that
deliver the device's contents (20_memory.md, 70_reset_and_hazards.md). -/

namespace Sys2Proof.Machine

/-! ### Reads up to a point -/

theorem readEvents_append (base : RegAddr) (idx : Nat) (xs ys : List (Option Byte)) :
    readEvents base idx (xs ++ ys) = readEvents base idx xs ++ readEvents base (idx + xs.length) ys := by
  induction xs generalizing idx with
  | nil => simp [readEvents]
  | cons x xs ih => simp [readEvents, ih, Nat.add_assoc, Nat.add_comm 1]

/-- Listed bytes are read before whatever is listed after them. -/
theorem readLoop_listed_then (base : RegAddr) (got : List Byte) (n idx : Nat) (e : Env) (rest : List Reply)
    (h : e.replies = got.map Reply.byte ++ rest) :
    readLoop base (got.length + n) idx e =
      got.foldr ReadResult.stage (readLoop base n (idx + got.length)
        { e with replies := rest, history := e.history ++ readEvents base idx (got.map some) }) := by
  induction got generalizing idx e with
  | nil =>
    obtain rfl : e.replies = rest := by simpa using h
    simp [readEvents]
  | cons b got ih =>
    have ha : nextAnswer e (base + BitVec.ofNat 8 idx) = .byte b := by simp [nextAnswer, h]
    rw [List.length_cons, Nat.add_right_comm, readLoop, ha]
    simp only
    rw [ih (idx + 1) _ (by simp [h])]
    simp [recordRead, readEvents, Nat.add_assoc, Nat.add_comm 1]

/-- What cuts the reads off is not staged over. -/
theorem foldr_stage_reset (got : List Byte) (e : Env) : got.foldr ReadResult.stage (.reset e) = .reset e := by
  induction got with
  | nil => rfl
  | cons b got ih => rw [List.foldr_cons, ih]; rfl

theorem foldr_stage_hung (got : List Byte) : got.foldr ReadResult.stage .hung = .hung := by
  induction got with
  | nil => rfl
  | cons b got ih => rw [List.foldr_cons, ih]; rfl

/-- The loop over listed bytes and then a reset. -/
theorem readLoop_listed_reset (base : RegAddr) {got : List Byte} {n : Nat} {e : Env} {rest : List Reply}
    (hn : got.length < n) (h : e.replies = got.map Reply.byte ++ .reset :: rest) :
    readLoop base n 0 e =
      .reset { e with replies := rest
                      history := e.history ++ readEvents base 0 (got.map some ++ [none]) } := by
  obtain ⟨m, rfl⟩ : ∃ m, n = got.length + (m + 1) := ⟨n - got.length - 1, by omega⟩
  rw [readLoop_listed_then base got (m + 1) 0 e _ h, readLoop]
  simp [nextAnswer, foldr_stage_reset, recordRead, readEvents_append, readEvents]

/-- The loop over listed bytes and then a read that is never answered. -/
theorem readLoop_listed_never (base : RegAddr) {got : List Byte} {n : Nat} {e : Env} {rest : List Reply}
    (hn : got.length < n) (h : e.replies = got.map Reply.byte ++ .never :: rest) :
    readLoop base n 0 e = .hung := by
  obtain ⟨m, rfl⟩ : ∃ m, n = got.length + (m + 1) := ⟨n - got.length - 1, by omega⟩
  rw [readLoop_listed_then base got (m + 1) 0 e _ h, readLoop]
  simp [nextAnswer, foldr_stage_hung]

/-! ### A reading command by the end of its loop -/

section
variable {who : Reader} {commit : List Byte → State → State} {s : State} {e : Env}

/-- A loop that ends does not hang. -/
theorem hangs_of_readLoop_ne {r : ReadResult} (h : readLoop who.base who.count 0 s.env = r) (hr : r ≠ .hung) :
    hangs who.count s.env.replies = false := by
  rw [← Bool.not_eq_true, ← readLoop_hung_iff who.base who.count 0 s.env, h]
  exact hr

theorem runReads_of_done {staged : List Byte} (h : readLoop who.base who.count 0 s.env = .done staged e) :
    runReads who commit s = .next (complete (commit staged { s with env := e })) := by
  simp [runReads, hangs_of_readLoop_ne h, h]

theorem runReads_of_reset (h : readLoop who.base who.count 0 s.env = .reset e) :
    runReads who commit s = .next (resetBlock { s with env := e }) := by
  simp [runReads, hangs_of_readLoop_ne h, h]

theorem runReads_of_hung (h : readLoop who.base who.count 0 s.env = .hung) :
    runReads who commit s = .fault .transportNeverAnswers := by
  simp [runReads, (readLoop_hung_iff _ _ _ _).1 h]

end

/-- Settles O11: the loop ends in the reset that is listed, with the events so far and the one cut off. -/
theorem resetAbandonsARunningCommand : Obligations.ResetAbandonsARunningCommand := by
  unfold Obligations.ResetAbandonsARunningCommand
  intro who s got rest hc hl h
  rw [exec_reader hc, runReads_of_reset (readLoop_listed_reset who.base hl h)]
  rfl

/-- Settles O12: the loop is stuck at the read that is never answered. -/
theorem unansweredReadIsStuck : Obligations.UnansweredReadIsStuck := by
  unfold Obligations.UnansweredReadIsStuck
  intro who s got rest hc hl h
  rw [exec_reader hc, runReads_of_hung (readLoop_listed_never who.base hl h)]

/-! ### Loads by content -/

/-- The content of a calibration register: the known byte, or the factory's (20_memory.md R63). -/
def calContent (device : Memory) (addr : RegAddr) : Byte :=
  (device.lookup addr.toNat).getD (Config.factoryByte addr)

/-- In the calibration region the content does not depend on when it is read (20_memory.md R63). -/
theorem deviceContent_cal {addr : RegAddr} (h : inCalRegion addr = true) (e : Env) :
    deviceContent e addr = calContent e.device addr := by
  unfold deviceContent calContent
  cases e.device.lookup addr.toNat <;> simp [h]

/-- The loop over a transport that delivers contents, in the calibration region. -/
theorem readLoop_content (base : RegAddr) (n idx : Nat) (e : Env) (rest : List Reply)
    (hcal : ∀ j < n, inCalRegion (base + BitVec.ofNat 8 (idx + j)) = true)
    (h : e.replies = List.replicate n Reply.content ++ rest) :
    ∃ e', readLoop base n idx e =
      .done ((List.range' idx n).map fun j => calContent e.device (base + BitVec.ofNat 8 j)) e' := by
  induction n generalizing idx e with
  | zero => exact ⟨e, rfl⟩
  | succ n ih =>
    have hregion : inCalRegion (base + BitVec.ofNat 8 idx) = true := hcal 0 (by omega)
    have ha : nextAnswer e (base + BitVec.ofNat 8 idx) =
        .byte (calContent e.device (base + BitVec.ofNat 8 idx)) := by
      rw [← deviceContent_cal hregion e]
      simp [nextAnswer, h, List.replicate_succ]
    obtain ⟨e', he'⟩ := ih (idx + 1) (recordRead (base + BitVec.ofNat 8 idx) _ e)
      (fun j hj => by simpa [Nat.add_assoc, Nat.add_comm 1] using hcal (j + 1) (by omega))
      (by simp [h, List.replicate_succ])
    refine ⟨e', ?_⟩
    rw [readLoop, ha]
    simp only
    rw [he']
    simp [ReadResult.stage, List.range'_succ]

/-- The addresses of `CAL_LOAD` are the calibration region (20_memory.md R54, R57). -/
theorem inCalRegion_calLoad {j : Nat} (h : j < 15) :
    inCalRegion (Reader.calLoad.base + BitVec.ofNat 8 (0 + j)) = true := by
  interval_cases j <;> decide

/-- The coefficients that a load by contents gives are a function of the device's contents. -/
theorem exec_calLoad_content {s : State} {rest : List Reply} (hp : s.phase = .unloaded)
    (h : s.env.replies = List.replicate 15 Reply.content ++ rest) :
    ∃ t, exec .calLoad s = .next t ∧
      t.coef = some (decodeImage (calImage ((List.range' 0 15).map fun j =>
        calContent s.env.device (Reader.calLoad.base + BitVec.ofNat 8 j)))) := by
  obtain ⟨e, hloop⟩ := readLoop_content Reader.calLoad.base 15 0 s.env rest (fun _ => inCalRegion_calLoad) h
  rw [exec_calLoad_unloaded hp, runReads_of_done (who := .calLoad) hloop]
  exact ⟨_, rfl, rfl⟩

/-- Settles O22: both loads give the coefficients of the one device's contents. -/
theorem repeatedLoadGivesTheSameCoefficients : Obligations.RepeatedLoadGivesTheSameCoefficients := by
  unfold Obligations.RepeatedLoadGivesTheSameCoefficients
  intro s s' rest rest' hp hp' hdev h h'
  obtain ⟨t, ht, hc⟩ := exec_calLoad_content hp h
  obtain ⟨t', ht', hc'⟩ := exec_calLoad_content hp' h'
  rw [← hdev] at hc'
  exact ⟨t, t', _, ht, ht', hc, hc'⟩

end Sys2Proof.Machine
end

section
/-! PROOFS of the statements about the extraction functions (40_calibration_extractor.md, 41_sample_decode.md). -/

namespace Sys2Proof.Machine

/-- Settles O18: the value given out is the signed value of the assembled field. -/
theorem twentyBitExtractions : Obligations.TwentyBitExtractions := by
  unfold Obligations.TwentyBitExtractions
  intro s b0 b1 b2 b3 b4
  rw [← splitShared_high_shift, ← splitShared_low_mask, ← assembleC00_toNat_shifts, ← assembleC10_toNat_shifts]
  exact ⟨rfl, rfl⟩

/-- Settles O19: the five functions give out the signed value of one 16-bit field. -/
theorem sixteenBitExtractions : Obligations.SixteenBitExtractions := by
  unfold Obligations.SixteenBitExtractions
  intro s high low i hi
  rw [← assemble16_toNat_shifts]
  rcases hi with rfl | rfl | rfl | rfl | rfl <;> rfl

/-- Settles O26: both functions give out the signed value of the 24-bit field. -/
theorem rawExtractions : Obligations.RawExtractions := by
  unfold Obligations.RawExtractions
  refine ⟨fun s s0 s1 s2 i hi => ?_, by decide, by decide⟩
  rw [← assembleRaw_toNat_shifts]
  rcases hi with rfl | rfl <;> rfl

/-- The extraction function of row `k` gives out what the decode of the image puts into `C[k]`
(40_calibration_extractor.md R113 to R121). -/
theorem exec_decodeCal (k : CalFn) (img : BitVec 120) (s : State) :
    exec (decodeCal k img) s = .next (giveValue ((coefValues (decodeImage img)).get k) s) := by
  cases k <;> rfl

/-- Settles O21: the load commits the decode of the image, which the extraction function reads one field of. -/
theorem loadAgreesWithExtractions : Obligations.LoadAgreesWithExtractions := by
  unfold Obligations.LoadAgreesWithExtractions
  intro s s' bytes rest k hp hl h
  exact ⟨_, _, _, exec_calLoad_listed hp hl h, rfl, exec_decodeCal k (calImage bytes) s', rfl⟩

end Sys2Proof.Machine
end

section
/-! PROOFS of the statements about frames: what an instruction leaves unchanged, the result register and the device
(10_state.md, 20_memory.md). -/

namespace Sys2Proof.Machine

@[simp] theorem raiseTransport_pressureValid (who : Reader) (s : State) :
    (raiseTransport who s).pressureValid = s.pressureValid := by
  cases who <;> rfl

/-! ### The world outside -/

/-- No instruction, reset in the middle of it included, writes the device. -/
theorem Effect.device_eq {i : Instr} {s t : State} (h : Effect i s t) : t.env.device = s.env.device := by
  cases h <;> simp

theorem Effect.inputs_eq {i : Instr} {s t : State} (h : Effect i s t) : t.env.inputs = s.env.inputs := by
  cases h <;> simp

theorem Effect.extOut_eq {i : Instr} {s t : State} (h : Effect i s t) (hi : isCommand i = true) :
    t.env.extOut = s.env.extOut := by
  cases h with
  | extracted _ _ _ hext => simp [hext] at hi
  | _ => simp

/-- Settles O49, by the cases of an instruction's effect. -/
theorem noInstructionWritesTheDevice : Obligations.NoInstructionWritesTheDevice := by
  unfold Obligations.NoInstructionWritesTheDevice
  exact fun _ _ _ h => (exec_effect h).device_eq

/-! ### The result -/

/-- Short of a reset, the one instruction that writes the result is a `COMP` that ends with OK. -/
theorem Effect.pressure_cases {i : Instr} {s t : State} (h : Effect i s t) (hr : noResetListed s) :
    (i = .comp ∧ t.res = .ok ∧ t.pressureValid = true ∧ t.pressure.isSome = true) ∨
      (t.pressure = s.pressure ∧ t.pressureValid = s.pressureValid) := by
  cases h with
  | computed => exact .inl ⟨rfl, rfl, rfl, rfl⟩
  | readReset _ _ _ hm => exact absurd hm hr
  | _ => exact .inr (by simp)

/-- Settles O44: the result is written by a `COMP` that ends with OK, and shut by its guard before. -/
theorem pressureIsKeptUntilTheNextResult : Obligations.PressureIsKeptUntilTheNextResult := by
  unfold Obligations.PressureIsKeptUntilTheNextResult
  exact fun _ _ _ h hr => ⟨(exec_effect h).pressure_cases hr, readPressure_eq_none⟩

/-! ### The frame of each instruction -/

/-- An extraction function changes `extOut` alone (40_calibration_extractor.md section 2). -/
theorem Effect.frame_ext {i : Instr} {s t : State} (h : Effect i s t) (hi : isCommand i = false) :
    sameBlock s t ∧ t.env = { s.env with extOut := t.env.extOut } := by
  cases h with
  | extracted => simp [sameBlock]
  | refused _ _ _ hcode =>
    obtain ⟨-, -, -, hcommand⟩ := refusalCode_some hcode
    simp [hi] at hcommand
  | readFailed who | readReset who => simp [Reader.isCommand_instr] at hi
  | nop | loaded | readPrs | readTmp | computed => cases hi

section
variable {i : Instr} {s t : State} (h : Effect i s t) (hr : noResetListed s)
include h hr

theorem Effect.phase_eq (hi : i ≠ .calLoad) : t.phase = s.phase :=
  (h.phase_eq_or_calLoad hr).resolve_right fun hload => hi hload.1

theorem Effect.coef_eq (hi : i ≠ .calLoad) : t.coef = s.coef :=
  (h.coef_cases hr).resolve_right fun hload => hi hload.1

theorem Effect.pRaw_eq (hi : i ≠ .rdPrs) : t.pRaw = s.pRaw := by
  cases h with
  | readPrs => exact absurd rfl hi
  | readReset _ _ _ hm => exact absurd hm hr
  | _ => simp

theorem Effect.tRaw_eq (hi : i ≠ .rdTmp) : t.tRaw = s.tRaw := by
  cases h with
  | readTmp => exact absurd rfl hi
  | readReset _ _ _ hm => exact absurd hm hr
  | _ => simp

theorem Effect.pFresh_eq (hread : i ≠ .rdPrs) (hcomp : i ≠ .comp) : t.pFresh = s.pFresh :=
  (h.fresh_eq hr).1.trans (freshAfter_other _ _ hread hcomp)

theorem Effect.tFresh_eq (hread : i ≠ .rdTmp) (hcomp : i ≠ .comp) : t.tFresh = s.tFresh :=
  (h.fresh_eq hr).2.trans (freshAfter_other _ _ hread hcomp)

theorem Effect.pressure_eq (hi : i ≠ .comp) : t.pressure = s.pressure ∧ t.pressureValid = s.pressureValid :=
  (h.pressure_cases hr).resolve_left fun hcomp => hi hcomp.1

end

/-- `COMP` reads and writes nothing outside the block (42_compensation_pipeline.md R176). -/
theorem Effect.env_eq_of_comp {s t : State} (h : Effect .comp s t) : t.env = s.env := by
  generalize hi : Instr.comp = i at h
  cases h with
  | refused | computed => rfl
  | readFailed who | readReset who => exact absurd hi.symm who.instr_ne_comp
  | extracted _ _ _ hext =>
    subst hi
    simp [isCommand] at hext
  | nop | loaded | readPrs | readTmp => cases hi

/-- Settles O45: each register by the instructions that may write it. -/
theorem framesOfTheInstructions : Obligations.FramesOfTheInstructions := by
  unfold Obligations.FramesOfTheInstructions
  intro i s t hexec hr
  have h := exec_effect hexec
  refine ⟨⟨h.params_eq, h.inputs_eq, fun a => by rw [h.device_eq], h.extOut_eq⟩, ?_, h.frame_ext, ?_, ?_, ?_, ?_⟩
  · rintro rfl
    exact (Host.Outcome.next.inj hexec).symm
  · rintro rfl
    exact ⟨h.pRaw_eq hr nofun, h.tRaw_eq hr nofun, h.pFresh_eq hr nofun nofun, h.tFresh_eq hr nofun nofun,
      h.pressure_eq hr nofun⟩
  · rintro rfl
    exact ⟨h.phase_eq hr nofun, h.coef_eq hr nofun, h.tRaw_eq hr nofun, h.tFresh_eq hr nofun nofun,
      h.pressure_eq hr nofun⟩
  · rintro rfl
    exact ⟨h.phase_eq hr nofun, h.coef_eq hr nofun, h.pRaw_eq hr nofun, h.pFresh_eq hr nofun nofun,
      h.pressure_eq hr nofun⟩
  · rintro rfl
    exact ⟨h.phase_eq hr nofun, h.coef_eq hr nofun, h.pRaw_eq hr nofun, h.tRaw_eq hr nofun, h.env_eq_of_comp⟩

/-! ### The result is no input -/

/-- The state with another result in its register (10_state.md R27, R28). -/
def setPressure (p : Option FloatBits) (b : Bool) (s : State) : State := { s with pressure := p, pressureValid := b }

@[simp] theorem setPressure_phase (p : Option FloatBits) (b : Bool) (s : State) :
    (setPressure p b s).phase = s.phase := rfl

@[simp] theorem setPressure_env (p : Option FloatBits) (b : Bool) (s : State) : (setPressure p b s).env = s.env := rfl

@[simp] theorem readCoefs_setPressure (p : Option FloatBits) (b : Bool) (s : State) :
    readCoefs (setPressure p b s) = readCoefs s := rfl

@[simp] theorem readTRaw_setPressure (p : Option FloatBits) (b : Bool) (s : State) :
    readTRaw (setPressure p b s) = readTRaw s := rfl

@[simp] theorem readPRaw_setPressure (p : Option FloatBits) (b : Bool) (s : State) :
    readPRaw (setPressure p b s) = readPRaw s := rfl

/-- Two outcomes that differ at most in the result: it is kept, with `p` and `b` in the second outcome, or written, and
then the outcomes are the same. -/
inductive SameButPressure (p : Option FloatBits) (b : Bool) : Result → Result → Prop where
  | kept (t : State) : SameButPressure p b (.next t) (.next (setPressure p b t))
  | written (t : State) : SameButPressure p b (.next t) (.next t)
  | fault (r : Fault) : SameButPressure p b (.fault r) (.fault r)

section
variable (p : Option FloatBits) (b : Bool) (s : State)

/-- The reads and their three ends do not see the result, where the commit does not. -/
theorem runReads_setPressure (who : Reader) {commit : List Byte → State → State}
    (hc : ∀ staged u, commit staged (setPressure p b u) = setPressure p b (commit staged u)) :
    SameButPressure p b (runReads who commit s) (runReads who commit (setPressure p b s)) := by
  by_cases hh : hangs who.count s.env.replies = true
  · simpa [runReads, hh] using SameButPressure.fault _
  · cases hloop : readLoop who.base who.count 0 s.env with
    | done staged e =>
      have hset : commit staged { setPressure p b s with env := e } = _ := hc staged { s with env := e }
      simp only [runReads, setPressure_env, hh, hloop, hset]
      exact .kept _
    | failed e =>
      simp only [runReads, setPressure_env, hh, hloop]
      cases who <;> exact .kept _
    | reset e =>
      simp only [runReads, setPressure_env, hh, hloop]
      exact .written _
    | hung => exact absurd ((readLoop_hung_iff _ _ _ _).1 hloop) hh

theorem execCalLoad_setPressure : SameButPressure p b (execCalLoad s) (execCalLoad (setPressure p b s)) := by
  unfold execCalLoad
  rw [setPressure_phase]
  split
  · exact .kept _
  · exact .kept _
  · exact runReads_setPressure p b s .calLoad fun _ _ => rfl

theorem execRdPrs_setPressure : SameButPressure p b (execRdPrs s) (execRdPrs (setPressure p b s)) := by
  unfold execRdPrs
  rw [setPressure_phase]
  split
  · exact .kept _
  · exact runReads_setPressure p b s .rdPrs fun _ _ => rfl
  · exact runReads_setPressure p b s .rdPrs fun _ _ => rfl

theorem execRdTmp_setPressure : SameButPressure p b (execRdTmp s) (execRdTmp (setPressure p b s)) := by
  unfold execRdTmp
  rw [setPressure_phase]
  split
  · exact .kept _
  · exact runReads_setPressure p b s .rdTmp fun _ _ => rfl
  · exact runReads_setPressure p b s .rdTmp fun _ _ => rfl

/-- `COMP` overwrites the result it does not read (42_compensation_pipeline.md R176). -/
theorem execComp_setPressure : SameButPressure p b (execComp s) (execComp (setPressure p b s)) := by
  unfold execComp
  rw [setPressure_phase]
  split
  · exact .kept _
  · exact .kept _
  · by_cases hf : s.pFresh = false ∨ s.tFresh = false
    · have hf' : (setPressure p b s).pFresh = false ∨ (setPressure p b s).tFresh = false := hf
      rw [if_pos hf, if_pos hf']
      exact .kept _
    · have hf' : ¬((setPressure p b s).pFresh = false ∨ (setPressure p b s).tFresh = false) := hf
      rw [if_neg hf, if_neg hf', readCoefs_setPressure, readTRaw_setPressure, readPRaw_setPressure]
      split
      · exact .written _
      · exact .fault _

theorem exec_setPressure (i : Instr) : SameButPressure p b (exec i s) (exec i (setPressure p b s)) := by
  cases i with
  | calLoad => exact execCalLoad_setPressure p b s
  | rdPrs => exact execRdPrs_setPressure p b s
  | rdTmp => exact execRdTmp_setPressure p b s
  | comp => exact execComp_setPressure p b s
  | _ => exact .kept _

end

/-- Settles O53: whatever the result, an instruction has the same outcome, but for the result where it is kept. -/
theorem pressureIsNeverAnInput : Obligations.PressureIsNeverAnInput := by
  unfold Obligations.PressureIsNeverAnInput
  intro i s p b
  have h : SameButPressure p b (exec i s) (exec i { s with pressure := p, pressureValid := b }) :=
    exec_setPressure p b s i
  generalize exec i s = r, exec i { s with pressure := p, pressureValid := b } = r' at h ⊢
  cases h with
  | kept t => exact ⟨p, b, rfl, .inr ⟨rfl, rfl⟩⟩
  | written t => exact ⟨t.pressure, t.pressureValid, rfl, .inl ⟨rfl, rfl⟩⟩
  | fault r => rfl

end Sys2Proof.Machine
end

section
/-! PROOFS of the statement about bit patterns (42_compensation_pipeline.md R155): the fields of a pattern, the number
three fields stand for, and the fields of a number. -/

namespace Sys2Proof.Machine

/-! ### The fields of a pattern -/

section
variable {a b : Nat} (s : Bool) (x : BitVec a) (y : BitVec b)

theorem append_sign : (BitVec.ofBool s ++ x ++ y : BitVec (1 + a + b)).getLsbD (a + b) = s := by
  simp [BitVec.getElem_append]

theorem append_middle : (BitVec.ofBool s ++ x ++ y : BitVec (1 + a + b)).extractLsb' b a = x := by
  ext i hi
  simp [BitVec.getLsbD_append, hi]

theorem append_low : (BitVec.ofBool s ++ x ++ y : BitVec (1 + a + b)).extractLsb' 0 b = y :=
  BitVec.extractLsb'_append_eq_right

/-- A pattern is its sign, its middle and its low field. -/
theorem append_fields (v : BitVec (1 + a + b)) :
    (BitVec.ofBool (v.getLsbD (a + b)) ++ v.extractLsb' b a ++ v.extractLsb' 0 b : BitVec (1 + a + b)) = v := by
  apply BitVec.eq_of_getLsbD_eq
  intro i hi
  simp only [BitVec.getLsbD_append, BitVec.getLsbD_extractLsb', BitVec.getLsbD_ofBool]
  split_ifs with h1 h2
  · simp [h1]
  · simp [h2]; congr 1; omega
  · obtain rfl : i = a + b := by omega
    simp

end

/-- The value of a pattern is that of the fields it is made from, where they fit. -/
theorem value_packFields (fmt : Fmt) (s : Bool) {ef frac : Nat} (hef : ef ≤ expOnes fmt)
    (hfrac : frac < 2 ^ fracBits fmt) : (packFields fmt s ef frac).value = unpackFields fmt s ef frac := by
  cases fmt with
  | binary32 =>
    have hexp : (BitVec.ofNat 8 ef).toNat = ef := Nat.mod_eq_of_lt (Nat.lt_succ_of_le hef)
    have hlow : (BitVec.ofNat 23 frac).toNat = frac := Nat.mod_eq_of_lt hfrac
    show unpackFields _ (BitVec.getLsbD (_ ++ _) (8 + 23)) _ _ = _
    rw [append_sign, append_middle, append_low, hexp, hlow]
  | binary64 =>
    have hexp : (BitVec.ofNat 11 ef).toNat = ef := Nat.mod_eq_of_lt (Nat.lt_succ_of_le hef)
    have hlow : (BitVec.ofNat 52 frac).toNat = frac := Nat.mod_eq_of_lt hfrac
    show unpackFields _ (BitVec.getLsbD (_ ++ _) (11 + 52)) _ _ = _
    rw [append_sign, append_middle, append_low, hexp, hlow]

/-- A pattern is made of fields that fit. -/
theorem exists_fields (bits : FloatBits) :
    ∃ s ef frac, ef ≤ expOnes bits.fmt ∧ frac < 2 ^ fracBits bits.fmt ∧ bits = packFields bits.fmt s ef frac := by
  cases bits with
  | b32 v =>
    refine ⟨v.getLsbD (8 + 23), (v.extractLsb' 23 8).toNat, (v.extractLsb' 0 23).toNat,
      Nat.le_of_lt_succ (BitVec.isLt _), BitVec.isLt _, ?_⟩
    show FloatBits.b32 v = .b32 _
    rw [BitVec.ofNat_toNat, BitVec.ofNat_toNat, BitVec.setWidth_eq, BitVec.setWidth_eq]
    exact congrArg FloatBits.b32 (append_fields (a := 8) (b := 23) v).symm
  | b64 v =>
    refine ⟨v.getLsbD (11 + 52), (v.extractLsb' 52 11).toNat, (v.extractLsb' 0 52).toNat,
      Nat.le_of_lt_succ (BitVec.isLt _), BitVec.isLt _, ?_⟩
    show FloatBits.b64 v = .b64 _
    rw [BitVec.ofNat_toNat, BitVec.ofNat_toNat, BitVec.setWidth_eq, BitVec.setWidth_eq]
    exact congrArg FloatBits.b64 (append_fields (a := 11) (b := 52) v).symm

/-! ### The constants of a format -/

theorem prec_eq (fmt : Fmt) : prec fmt = fracBits fmt + 1 := by
  cases fmt <;> rfl

theorem emin_eq (fmt : Fmt) : emin fmt = 1 - emax fmt := by
  cases fmt <;> rfl

theorem expOnes_eq (fmt : Fmt) : (expOnes fmt : Int) = 2 * emax fmt + 1 := by
  cases fmt <;> rfl

theorem emax_pos (fmt : Fmt) : 0 < emax fmt := by
  cases fmt <;> simp [emax]

/-! ### A number by its sign, significand and exponent -/

/-- `(-1)^s * m * 2^(e-p+1)` (42_compensation_pipeline.md R155). -/
def scaled (fmt : Fmt) (s : Bool) (m : Nat) (e : Int) : ℚ :=
  (if s then -1 else 1) * (m : ℚ) * (2 : ℚ) ^ (e - (prec fmt : Int) + 1)

/-- The significand and the exponent of a non-zero number as its pattern has them: the hidden bit is set, or the
exponent is the least (42_compensation_pipeline.md R155). -/
structure Normalized (fmt : Fmt) (m : Nat) (e : Int) : Prop where
  pos : 0 < m
  lt : m < 2 ^ prec fmt
  emin_le : emin fmt ≤ e
  le_emax : e ≤ emax fmt
  full : 2 ^ fracBits fmt ≤ m ∨ e = emin fmt

theorem abs_scaled (fmt : Fmt) (s : Bool) (m : Nat) (e : Int) :
    |scaled fmt s m e| = m * (2 : ℚ) ^ (e - (prec fmt : Int) + 1) := by
  have hpow : (0 : ℚ) < 2 ^ (e - (prec fmt : Int) + 1) := by positivity
  cases s <;> simp [scaled, abs_mul, abs_of_pos hpow]

theorem scaled_neg_iff {fmt : Fmt} {s : Bool} {m : Nat} {e : Int} (hm : 0 < m) :
    scaled fmt s m e < 0 ↔ s = true := by
  have hpos : (0 : ℚ) < m * (2 : ℚ) ^ (e - (prec fmt : Int) + 1) := by positivity
  cases s
  · simpa [scaled] using hpos.le
  · simpa [scaled] using hpos

section
variable {fmt : Fmt} {m : Nat} {e : Int} (h : Normalized fmt m e) (s : Bool)
include h

theorem Normalized.scaled_ne_zero : scaled fmt s m e ≠ 0 := by
  have hm := h.pos
  rw [← abs_pos, abs_scaled]
  positivity

theorem Normalized.abs_scaled_lt : |scaled fmt s m e| < (2 : ℚ) ^ (e + 1) := by
  have hm : (m : ℚ) < 2 ^ (prec fmt : Int) := by exact_mod_cast h.lt
  calc |scaled fmt s m e| = m * (2 : ℚ) ^ (e - (prec fmt : Int) + 1) := abs_scaled fmt s m e
    _ < 2 ^ (prec fmt : Int) * (2 : ℚ) ^ (e - (prec fmt : Int) + 1) := by gcongr
    _ = (2 : ℚ) ^ (e + 1) := by rw [← zpow_add₀ two_ne_zero]; congr 1; ring

/-- The exponent is the one of the rounding's rule (42_compensation_pipeline.md R156). -/
theorem Normalized.max_ilog2 : max (ilog2 (scaled fmt s m e)) (emin fmt) = e := by
  have hx := h.scaled_ne_zero s
  have hlow := (ilog2_spec hx).1
  have hle : ilog2 (scaled fmt s m e) < e + 1 :=
    (zpow_lt_zpow_iff_right₀ one_lt_two).1 (hlow.trans_lt (h.abs_scaled_lt s))
  rcases h.full with hfull | he
  · have hm : (2 : ℚ) ^ (fracBits fmt : Int) ≤ m := by exact_mod_cast hfull
    have hge : (2 : ℚ) ^ e ≤ |scaled fmt s m e| := by
      calc (2 : ℚ) ^ e = 2 ^ (fracBits fmt : Int) * (2 : ℚ) ^ (e - (prec fmt : Int) + 1) := by
            rw [← zpow_add₀ two_ne_zero, prec_eq]; congr 1; push_cast; ring
        _ ≤ m * (2 : ℚ) ^ (e - (prec fmt : Int) + 1) := by gcongr
        _ = |scaled fmt s m e| := (abs_scaled fmt s m e).symm
    rw [ilog2_unique hx hge (h.abs_scaled_lt s), max_eq_left h.emin_le]
  · omega

theorem Normalized.spacing_scaled : spacing fmt (scaled fmt s m e) = (2 : ℚ) ^ (e - (prec fmt : Int) + 1) := by
  rw [spacing, h.max_ilog2, pow2_eq]

/-- The pattern of a number, field by field (42_compensation_pipeline.md R155). -/
theorem Normalized.toBits_scaled : (FVal.num (scaled fmt s m e)).toBits fmt =
    if m < 2 ^ fracBits fmt then packFields fmt s 0 m
    else packFields fmt s (e + emax fmt).toNat (m - 2 ^ fracBits fmt) := by
  have hm : (mag (scaled fmt s m e) / spacing fmt (scaled fmt s m e)).floor.toNat = m := by
    have hq : mag (scaled fmt s m e) / spacing fmt (scaled fmt s m e) = ((m : Int) : ℚ) := by
      rw [mag_eq, h.spacing_scaled, abs_scaled, mul_div_cancel_right₀ _ (by positivity)]
      rfl
    rw [hq, Rat.floor_intCast, Int.toNat_natCast]
  have hsign : decide (scaled fmt s m e < 0) = s := by
    rw [Bool.eq_iff_iff, decide_eq_true_iff, scaled_neg_iff h.pos]
  simp only [FVal.toBits, hm, hsign, h.max_ilog2]

/-- The fields of a number without the hidden bit: a subnormal one (42_compensation_pipeline.md R155). -/
theorem Normalized.unpackFields_subnormal (hm : m < 2 ^ fracBits fmt) :
    unpackFields fmt s 0 m = .num (scaled fmt s m e) := by
  have he : e = emin fmt := h.full.resolve_left hm.not_ge
  have hones : (0 : Nat) ≠ expOnes fmt := by cases fmt <;> decide
  rw [unpackFields, if_neg hones, if_pos rfl, if_neg h.pos.ne', pow2_eq, scaled, he]

/-- The fields of a number with the hidden bit: a normal one (42_compensation_pipeline.md R155). -/
theorem Normalized.unpackFields_normal (hm : 2 ^ fracBits fmt ≤ m) :
    unpackFields fmt s (e + emax fmt).toNat (m - 2 ^ fracBits fmt) = .num (scaled fmt s m e) := by
  have hlow := h.emin_le
  have hhigh := h.le_emax
  have hmin := emin_eq fmt
  have hones := expOnes_eq fmt
  have hmax := emax_pos fmt
  have hexp : (((e + emax fmt).toNat : Nat) : Int) = e + emax fmt := by omega
  rw [unpackFields, if_neg (by omega), if_neg (by omega), Nat.add_sub_cancel' hm, pow2_eq, scaled, hexp,
    add_sub_cancel_right]

theorem Normalized.value_toBits : ((FVal.num (scaled fmt s m e)).toBits fmt).value = .num (scaled fmt s m e) := by
  rw [h.toBits_scaled]
  have hlow := h.emin_le
  have hhigh := h.le_emax
  have hones := expOnes_eq fmt
  split_ifs with hm
  · rw [value_packFields fmt s (Nat.zero_le _) hm, h.unpackFields_subnormal s hm]
  · have hlt := h.lt
    rw [prec_eq, pow_succ] at hlt
    rw [value_packFields fmt s (by omega) (by omega), h.unpackFields_normal s (not_lt.1 hm)]

end

/-- Every representable non-zero number has a significand and an exponent. -/
theorem Representable.exists_scaled {fmt : Fmt} {x : ℚ} (h : Representable fmt x) (hx : x ≠ 0) :
    ∃ s m e, Normalized fmt m e ∧ x = scaled fmt s m e := by
  obtain ⟨n, hn⟩ := h.multiple hx
  obtain ⟨hlow, hhigh⟩ := ilog2_spec hx
  have hmin := emin_eq fmt
  have hmax := emax_pos fmt
  generalize he : max (ilog2 x) (emin fmt) = e
  have hq : spacing fmt x = (2 : ℚ) ^ (e - (prec fmt : Int) + 1) := by rw [spacing, pow2_eq, he]
  have hpos : (0 : ℚ) < 2 ^ (e - (prec fmt : Int) + 1) := by positivity
  have habs : |x| = n.natAbs * (2 : ℚ) ^ (e - (prec fmt : Int) + 1) := by
    rw [hn, hq, abs_mul, abs_of_pos hpos, Nat.cast_natAbs, Int.cast_abs]
  have hscale (k : Nat) : (2 : ℚ) ^ (e - prec fmt + 1 + k) = (2 ^ k : Nat) * 2 ^ (e - (prec fmt : Int) + 1) := by
    rw [zpow_add₀ two_ne_zero, zpow_natCast, mul_comm, Nat.cast_pow, Nat.cast_ofNat]
  refine ⟨decide (x < 0), n.natAbs, e, ⟨?_, ?_, by omega, ?_, ?_⟩, ?_⟩
  · rw [Int.natAbs_pos]
    rintro rfl
    exact hx (by simpa using hn)
  · have hlt : |x| < (2 : ℚ) ^ (e - prec fmt + 1 + prec fmt) :=
      hhigh.trans_le (zpow_le_zpow_right₀ one_le_two (by omega))
    rw [hscale, habs] at hlt
    exact_mod_cast lt_of_mul_lt_mul_right hlt hpos.le
  · have hlt := (zpow_lt_zpow_iff_right₀ one_lt_two).1 (hlow.trans_lt h.1)
    omega
  · by_cases hsub : ilog2 x ≤ emin fmt
    · exact .inr (by omega)
    · have hle : (2 : ℚ) ^ (e - prec fmt + 1 + fracBits fmt) ≤ |x| :=
        (zpow_le_zpow_right₀ one_le_two (by have := prec_eq fmt; omega)).trans hlow
      rw [hscale, habs] at hle
      exact .inl (by exact_mod_cast le_of_mul_le_mul_right hle hpos)
  · rw [scaled, mul_assoc, ← habs]
    by_cases hneg : x < 0
    · simp [hneg, abs_of_neg hneg]
    · simp [hneg, abs_of_nonneg (not_lt.1 hneg)]

/-! ### Fields and values -/

/-- Fields that stand for no NaN are those of the value they stand for: a zero, an infinity, or a number that has these
fields. -/
theorem toBits_unpackFields {fmt : Fmt} {s : Bool} {ef frac : Nat} (hef : ef ≤ expOnes fmt)
    (hfrac : frac < 2 ^ fracBits fmt) (hnan : unpackFields fmt s ef frac ≠ .nan) :
    (unpackFields fmt s ef frac).toBits fmt = packFields fmt s ef frac := by
  have hmin := emin_eq fmt
  have hmax := emax_pos fmt
  have hones := expOnes_eq fmt
  have hprec : 2 ^ prec fmt = 2 ^ fracBits fmt * 2 := by rw [prec_eq, pow_succ]
  by_cases htop : ef = expOnes fmt
  · by_cases hzero : frac = 0
    · simp [unpackFields, htop, hzero, FVal.toBits]
    · simp [unpackFields, htop, hzero] at hnan
  · by_cases hsub : ef = 0
    · by_cases hzero : frac = 0
      · simp [unpackFields, hsub, hzero, hsub ▸ htop, FVal.toBits]
      · have h : Normalized fmt frac (emin fmt) := ⟨by omega, by omega, le_rfl, by omega, .inr rfl⟩
        rw [hsub, h.unpackFields_subnormal s hfrac, h.toBits_scaled, if_pos hfrac]
    · have h : Normalized fmt (2 ^ fracBits fmt + frac) (ef - emax fmt) :=
        ⟨by positivity, by omega, by omega, by omega, .inl (Nat.le_add_right _ _)⟩
      have hexp : ((ef : Int) - emax fmt + emax fmt).toNat = ef := by omega
      have hunpack := h.unpackFields_normal s (Nat.le_add_right _ _)
      rw [hexp, Nat.add_sub_cancel_left] at hunpack
      rw [hunpack, h.toBits_scaled, if_neg (by omega), hexp, Nat.add_sub_cancel_left]

theorem toBits_value {bits : FloatBits} (hnan : bits.value ≠ .nan) : bits.value.toBits bits.fmt = bits := by
  obtain ⟨s, ef, frac, hef, hfrac, hbits⟩ := exists_fields bits
  have hvalue : bits.value = unpackFields bits.fmt s ef frac := by
    conv_lhs => rw [hbits, value_packFields bits.fmt s hef hfrac]
  rw [hvalue] at hnan ⊢
  exact (toBits_unpackFields hef hfrac hnan).trans hbits.symm

/-- Settles O38: a number and a pattern have the same three fields, from the one to the other and back. -/
theorem bitPatternsStandForTheirValues : Obligations.BitPatternsStandForTheirValues := by
  unfold Obligations.BitPatternsStandForTheirValues
  refine ⟨fun fmt x hx h => ?_, fun bits => toBits_value (bits := .b32 bits),
    fun bits => toBits_value (bits := .b64 bits)⟩
  obtain ⟨s, m, e, hnormal, rfl⟩ := h.exists_scaled hx
  exact ⟨hnormal.value_toBits s, toBits_fmt fmt _⟩

end Sys2Proof.Machine
end

section
/-! PROOFS, the layer below the statements about accuracy and range (42_compensation_pipeline.md R174, R175): what one
rounding keeps, how rounding errors add up, and the rule of each operation for the values of an evaluation. -/

namespace Sys2Proof.Machine

/-! ### Multiples of a power of two -/

/-- `x` is a multiple of `2^g`. -/
def OnGrid (g : Int) (x : ℚ) : Prop := ∃ n : Int, x = n * (2 : ℚ) ^ g

theorem onGrid_int (n : Int) : OnGrid 0 (n : ℚ) := ⟨n, by simp⟩

theorem onGrid_zero (g : Int) : OnGrid g 0 := ⟨0, by simp⟩

section
variable {g h : Int} {x y : ℚ}

theorem OnGrid.mono (hx : OnGrid g x) (hle : h ≤ g) : OnGrid h x := by
  obtain ⟨n, rfl⟩ := hx
  obtain ⟨d, rfl⟩ := Int.le.dest hle
  refine ⟨n * 2 ^ d, ?_⟩
  rw [zpow_add₀ two_ne_zero, zpow_natCast]
  push_cast
  ring

theorem OnGrid.add (hx : OnGrid g x) (hy : OnGrid g y) : OnGrid g (x + y) := by
  obtain ⟨n, rfl⟩ := hx
  obtain ⟨m, rfl⟩ := hy
  exact ⟨n + m, by push_cast; ring⟩

theorem OnGrid.mul (hx : OnGrid g x) (hy : OnGrid h y) : OnGrid (g + h) (x * y) := by
  obtain ⟨n, rfl⟩ := hx
  obtain ⟨m, rfl⟩ := hy
  refine ⟨n * m, ?_⟩
  rw [zpow_add₀ two_ne_zero]
  push_cast
  ring

/-- A multiple of `2^g` that is not zero is at least that great. -/
theorem OnGrid.le_abs (hx : OnGrid g x) (hne : x ≠ 0) : (2 : ℚ) ^ g ≤ |x| := by
  obtain ⟨n, rfl⟩ := hx
  have hn : n ≠ 0 := by
    rintro rfl
    simp at hne
  have hone : (1 : ℚ) ≤ |(n : ℚ)| := by exact_mod_cast Int.one_le_abs hn
  have hpos : (0 : ℚ) < 2 ^ g := by positivity
  rw [abs_mul, abs_of_pos hpos]
  exact le_mul_of_one_le_left hpos.le hone

end

/-! ### What the rounding keeps -/

section
variable {fmt : Fmt} {x y : ℚ}

theorem spacing_eq_zpow (fmt : Fmt) (x : ℚ) :
    spacing fmt x = (2 : ℚ) ^ (max (ilog2 x) (emin fmt) - (prec fmt : Int) + 1) := pow2_eq _

/-- A rounded number is a multiple of the spacing, and the value of the format is a zero or that number. -/
theorem roundF_number (hx : x ≠ 0) (h : (roundF fmt x).number = some y) :
    y = nearestEven (x / spacing fmt x) * spacing fmt x ∧ StandsFor (roundF fmt x) y := by
  obtain ⟨n, rfl, hcases⟩ := roundF_cases (fmt := fmt) hx
  rcases hcases with ⟨hzero, hr⟩ | ⟨-, -, hr⟩ | ⟨hne, -, hr⟩ <;> rw [hr] at h ⊢
  · obtain rfl : 0 = y := Option.some.inj h
    exact ⟨hzero.symm, .zero _⟩
  · cases h
  · obtain rfl := Option.some.inj h
    exact ⟨rfl, .num _ hne⟩

theorem roundF_half_spacing (hx : x ≠ 0) (h : (roundF fmt x).number = some y) : |y - x| ≤ spacing fmt x / 2 := by
  have hq := spacing_pos fmt x
  rw [(roundF_number hx h).1, abs_sub_comm, abs_sub_mul_eq hq]
  linarith [mul_le_mul_of_nonneg_right (nearestEven_close (x / spacing fmt x)) hq.le]

/-- A normal number is rounded within one part in `2^p` (42_compensation_pipeline.md R156). -/
theorem roundF_relative (hx : (2 : ℚ) ^ emin fmt ≤ |x|) (h : (roundF fmt x).number = some y) :
    |y - x| ≤ |x| / 2 ^ prec fmt := by
  have hne : x ≠ 0 := by
    rw [← abs_pos]
    exact lt_of_lt_of_le (by positivity) hx
  obtain ⟨hlow, hhigh⟩ := ilog2_spec hne
  have hexp := (zpow_lt_zpow_iff_right₀ one_lt_two).1 (hx.trans_lt hhigh)
  calc |y - x| ≤ spacing fmt x / 2 := roundF_half_spacing hne h
    _ = (2 : ℚ) ^ ilog2 x / 2 ^ prec fmt := by
      rw [spacing_eq_zpow, max_eq_left (by omega), zpow_add₀ two_ne_zero, zpow_sub₀ two_ne_zero, zpow_natCast,
        zpow_one]
      ring
    _ ≤ |x| / 2 ^ prec fmt := by gcongr

/-- Rounding keeps a multiple of a power of two one: it is exact, or the spacing is coarser. -/
theorem roundF_onGrid {g : Int} (hx : x ≠ 0) (hg : OnGrid g x) (h : (roundF fmt x).number = some y) :
    OnGrid g y := by
  obtain ⟨hy, -⟩ := roundF_number hx h
  generalize he : max (ilog2 x) (emin fmt) - (prec fmt : Int) + 1 = e
  have hspace : spacing fmt x = (2 : ℚ) ^ e := by rw [spacing_eq_zpow, he]
  rw [hspace] at hy
  rcases le_total g e with hle | hle
  · exact OnGrid.mono ⟨_, hy⟩ hle
  · obtain ⟨n, hn⟩ := hg.mono hle
    have hquot : x / 2 ^ e = n := by rw [hn, mul_div_cancel_right₀ _ (by positivity)]
    rw [hquot, nearestEven_int, ← hn] at hy
    rwa [hy]

/-- No multiple of the least subnormal number rounds to zero (42_compensation_pipeline.md R175). -/
theorem roundF_ne_zero (hx : x ≠ 0) (hg : OnGrid (emin fmt - (prec fmt : Int) + 1) x) (s : Bool) :
    roundF fmt x ≠ .zero s := by
  intro hzero
  have hle : |x| ≤ spacing fmt x / 2 := by
    simpa using roundF_half_spacing (fmt := fmt) (y := 0) hx (by rw [hzero]; rfl)
  have hprec : 1 ≤ (prec fmt : Int) := by cases fmt <;> simp [prec]
  have hhalf : spacing fmt x / 2 = (2 : ℚ) ^ (max (ilog2 x) (emin fmt) - (prec fmt : Int)) := by
    rw [spacing_eq_zpow, zpow_add₀ two_ne_zero, zpow_one]
    ring
  rw [hhalf] at hle
  have hlog := (zpow_le_zpow_iff_right₀ one_lt_two).1 ((ilog2_spec hx).1.trans hle)
  have hgrid := (zpow_le_zpow_iff_right₀ one_lt_two).1 ((hg.le_abs hx).trans hle)
  omega

end

/-! ### One rounded operation -/

/-- What is said of every number `y` that an exact result `x` is rounded to, in either format. -/
structure RoundsTo (x y : ℚ) : Prop where
  close : |y - x| ≤ |x| / 2 ^ 24 + 1 / 2 ^ 150
  grid : ∀ g, OnGrid g x → OnGrid g y

theorem roundF_roundsTo {x : ℚ} (fmt : Fmt) (hx : |x| ≤ 2 ^ 27) :
    ∃ y, StandsFor (roundF fmt x) y ∧ RoundsTo x y := by
  by_cases hne : x = 0
  · subst hne
    exact ⟨0, .zero false, ⟨by norm_num, fun _ hg => hg⟩⟩
  · have hmin : emin fmt ≤ 27 := by cases fmt <;> simp [emin]
    have hmax : 27 ≤ emax fmt := by cases fmt <;> simp [emax]
    obtain ⟨y, hy, hclose⟩ := roundF_close hmin hmax (by exact_mod_cast hx)
    refine ⟨y, (roundF_number hne hy).2, ⟨hclose.trans (add_le_add ?_ ?_), fun g hg => roundF_onGrid hne hg hy⟩⟩
    · have hprec : 24 ≤ prec fmt := by cases fmt <;> simp [prec]
      gcongr
      norm_num
    · have hexp : emin fmt - (prec fmt : Int) ≤ -150 := by cases fmt <;> simp [emin, prec]
      calc (2 : ℚ) ^ emin fmt / 2 ^ prec fmt = (2 : ℚ) ^ (emin fmt - (prec fmt : Int)) := by
            rw [zpow_sub₀ two_ne_zero, zpow_natCast]
        _ ≤ (2 : ℚ) ^ (-150 : Int) := zpow_le_zpow_right₀ one_le_two hexp
        _ = 1 / 2 ^ 150 := by norm_num

section
variable (fmt : Fmt) {a b c : FVal} {x y z : ℚ}

/-- An exact zero has its rule's sign, every other exact result is rounded. -/
theorem zero_or_roundF_roundsTo (s : Bool) (hx : |x| ≤ 2 ^ 27) :
    ∃ r, StandsFor (if x = 0 then .zero s else roundF fmt x) r ∧ RoundsTo x r := by
  split_ifs with h
  · exact ⟨0, .zero s, ⟨by norm_num [h], fun g _ => onGrid_zero g⟩⟩
  · exact roundF_roundsTo fmt hx

theorem fmul_roundsTo (ha : StandsFor a x) (hb : StandsFor b y) (h : |x * y| ≤ 2 ^ 27) :
    ∃ r, StandsFor (fmul fmt a b) r ∧ RoundsTo (x * y) r := by
  rw [fmul_eq ha hb]
  exact zero_or_roundF_roundsTo fmt _ h

theorem fadd_roundsTo (ha : StandsFor a x) (hb : StandsFor b y) (h : |x + y| ≤ 2 ^ 27) :
    ∃ r, StandsFor (fadd fmt a b) r ∧ RoundsTo (x + y) r := by
  rw [fadd_eq ha hb]
  exact zero_or_roundF_roundsTo fmt _ h

theorem fma_roundsTo (ha : StandsFor a x) (hb : StandsFor b y) (hc : StandsFor c z) (h : |x * y + z| ≤ 2 ^ 27) :
    ∃ r, StandsFor (fma fmt a b c) r ∧ RoundsTo (x * y + z) r := by
  rw [fma_eq ha hb hc]
  exact zero_or_roundF_roundsTo fmt _ h

end

/-! ### Accumulated rounding errors -/

/-- A bound on the error of one rounding, relative to a bound of at least 1 on the magnitude: `2^-24`, and what a
subnormal result adds. -/
def relErr : ℚ := 17 / 2 ^ 28

/-- The greatest pressure in exact arithmetic (42_compensation_pipeline.md R174). -/
def maxPressure : ℚ := 6289512965 / 100

/-- `y` is computed with `k` roundings on every path, where the exact value `x` has magnitude at most `X`. -/
structure Approx (y x X : ℚ) (k : Nat) : Prop where
  one_le : 1 ≤ X
  exact_le : |x| ≤ X
  close : |y - x| ≤ X * ((1 + relErr) ^ k - 1)

theorem relErr_nonneg : 0 ≤ relErr := by norm_num [relErr]

theorem one_le_one_add_relErr_pow (k : Nat) : 1 ≤ (1 + relErr) ^ k :=
  one_le_pow₀ (by linarith [relErr_nonneg])

theorem one_add_relErr_pow_mono {j k : Nat} (h : j ≤ k) : (1 + relErr) ^ j ≤ (1 + relErr) ^ k :=
  pow_le_pow_right₀ (by linarith [relErr_nonneg]) h

section
variable {x y z X Y a b : ℚ} {j k : Nat}

theorem Approx.of_exact (hX : 1 ≤ X) (hx : |x| ≤ X) : Approx x x X 0 := ⟨hX, hx, by simp⟩

theorem Approx.abs_le (h : Approx y x X k) : |y| ≤ X * (1 + relErr) ^ k := by
  calc |y| = |x + (y - x)| := by ring_nf
    _ ≤ |x| + |y - x| := abs_add_le _ _
    _ ≤ X + X * ((1 + relErr) ^ k - 1) := add_le_add h.exact_le h.close
    _ = X * (1 + relErr) ^ k := by ring

theorem Approx.mono (h : Approx y x X j) (hjk : j ≤ k) : Approx y x X k := by
  have hX : 0 ≤ X := by linarith [h.one_le]
  refine ⟨h.one_le, h.exact_le, h.close.trans ?_⟩
  have hpow := one_add_relErr_pow_mono hjk
  gcongr

theorem Approx.mul (ha : Approx a x X j) (hb : Approx b y Y k) : Approx (a * b) (x * y) (X * Y) (j + k) := by
  have hX := ha.one_le
  have hY := hb.one_le
  have hx := ha.exact_le
  have hb' := hb.abs_le
  have hpow := one_le_one_add_relErr_pow j
  refine ⟨by nlinarith, ?_, ?_⟩
  · rw [abs_mul]
    exact mul_le_mul hx hb.exact_le (abs_nonneg _) (by linarith)
  · calc |a * b - x * y| = |(a - x) * b + x * (b - y)| := by ring_nf
      _ ≤ |a - x| * |b| + |x| * |b - y| := by rw [← abs_mul, ← abs_mul]; exact abs_add_le _ _
      _ ≤ X * ((1 + relErr) ^ j - 1) * (Y * (1 + relErr) ^ k) + X * (Y * ((1 + relErr) ^ k - 1)) :=
        add_le_add (mul_le_mul ha.close hb' (abs_nonneg _) (mul_nonneg (by linarith) (by linarith)))
          (mul_le_mul hx hb.close (abs_nonneg _) (by linarith))
      _ = X * Y * ((1 + relErr) ^ (j + k) - 1) := by ring

theorem Approx.add (ha : Approx a x X j) (hb : Approx b y Y k) :
    Approx (a + b) (x + y) (X + Y) (max j k) := by
  have ha' := ha.mono (le_max_left j k)
  have hb' := hb.mono (le_max_right j k)
  refine ⟨by linarith [ha.one_le, hb.one_le], (abs_add_le _ _).trans (add_le_add ha.exact_le hb.exact_le), ?_⟩
  calc |a + b - (x + y)| = |(a - x) + (b - y)| := by ring_nf
    _ ≤ |a - x| + |b - y| := abs_add_le _ _
    _ ≤ X * ((1 + relErr) ^ max j k - 1) + Y * ((1 + relErr) ^ max j k - 1) := add_le_add ha'.close hb'.close
    _ = (X + Y) * ((1 + relErr) ^ max j k - 1) := by ring

/-- Rounding the computed value once more. -/
theorem Approx.round (h : Approx y x X k) (hr : RoundsTo y z) : Approx z x X (k + 1) := by
  have hX := h.one_le
  have hpow := one_le_one_add_relErr_pow k
  have hbig : 1 ≤ X * (1 + relErr) ^ k := one_le_mul_of_one_le_of_one_le hX hpow
  have hround : |z - y| ≤ relErr * (X * (1 + relErr) ^ k) := by
    calc |z - y| ≤ |y| / 2 ^ 24 + 1 / 2 ^ 150 := hr.close
      _ ≤ X * (1 + relErr) ^ k / 2 ^ 24 + 1 / 2 ^ 28 := by
        gcongr
        · exact h.abs_le
        · norm_num
        · norm_num
      _ ≤ X * (1 + relErr) ^ k / 2 ^ 24 + X * (1 + relErr) ^ k / 2 ^ 28 := by gcongr
      _ = 17 / 2 ^ 28 * (X * (1 + relErr) ^ k) := by ring
  refine ⟨hX, h.exact_le, ?_⟩
  calc |z - x| = |(z - y) + (y - x)| := by ring_nf
    _ ≤ |z - y| + |y - x| := abs_add_le _ _
    _ ≤ relErr * (X * (1 + relErr) ^ k) + X * ((1 + relErr) ^ k - 1) := add_le_add hround h.close
    _ = X * ((1 + relErr) ^ (k + 1) - 1) := by ring

end

/-! ### The values of the pipeline -/

/-- The exponent of a power of two of which both scaled values are multiples (42_compensation_pipeline.md R164, R165). -/
def gridExp (fmt : Fmt) : Int := -19 - (prec fmt : Int)

/-- The value `v` of an evaluation is finite, computed for the exact value `x` of magnitude at most `X` with at most `k`
roundings on every path, and of degree at most `d` in the scaled values. -/
structure Tracks (fmt : Fmt) (v : FVal) (x X : ℚ) (k d : Nat) : Prop where
  value : ∃ y, StandsFor v y ∧ Approx y x X k ∧ OnGrid (d * gridExp fmt) y
  le_max : X ≤ maxPressure
  roundings : k ≤ 11

theorem OnGrid.mono_degree {fmt : Fmt} {y : ℚ} {d e : Nat} (h : OnGrid (d * gridExp fmt) y) (hde : d ≤ e) :
    OnGrid (e * gridExp fmt) y := by
  refine h.mono (mul_le_mul_of_nonpos_right (by exact_mod_cast hde) ?_)
  rw [gridExp]
  omega

theorem OnGrid.mul_degree {fmt : Fmt} {x y : ℚ} {d e : Nat} (hx : OnGrid (d * gridExp fmt) x)
    (hy : OnGrid (e * gridExp fmt) y) : OnGrid ((d + e : Nat) * gridExp fmt) (x * y) := by
  rw [Nat.cast_add, add_mul]
  exact hx.mul hy

theorem OnGrid.add_degree {fmt : Fmt} {x y : ℚ} {d e : Nat} (hx : OnGrid (d * gridExp fmt) x)
    (hy : OnGrid (e * gridExp fmt) y) : OnGrid ((max d e : Nat) * gridExp fmt) (x + y) :=
  (hx.mono_degree (le_max_left d e)).add (hy.mono_degree (le_max_right d e))

/-- Up to degree three no value underflows (42_compensation_pipeline.md R175). -/
theorem OnGrid.of_degree_le_three {fmt : Fmt} {y : ℚ} {d : Nat} (h : OnGrid (d * gridExp fmt) y) (hd : d ≤ 3) :
    OnGrid (emin fmt - (prec fmt : Int) + 1) y := by
  refine (h.mono_degree hd).mono ?_
  cases fmt <;> simp [emin, prec, gridExp]

theorem Approx.abs_lt {x y X : ℚ} {k : Nat} (h : Approx y x X k) (hX : X ≤ maxPressure) (hk : k ≤ 11) :
    |y| < 2 ^ 27 := by
  have hone := h.one_le
  have hpow := one_add_relErr_pow_mono hk
  calc |y| ≤ X * (1 + relErr) ^ k := h.abs_le
    _ ≤ maxPressure * (1 + relErr) ^ 11 := mul_le_mul hX hpow (by linarith [one_le_one_add_relErr_pow k]) (by linarith)
    _ < 2 ^ 27 := by norm_num [maxPressure, relErr]

section
variable {fmt : Fmt} {v w u : FVal} {x y z X Y Z : ℚ} {j k l d e f : Nat}

theorem Tracks.of_rounded {r : ℚ} (hop : |r| ≤ 2 ^ 27 → ∃ q, StandsFor v q ∧ RoundsTo r q)
    (ha : Approx r x X k) (hg : OnGrid (d * gridExp fmt) r) (hX : X ≤ maxPressure) (hk : k ≤ 10) :
    Tracks fmt v x X (k + 1) d := by
  obtain ⟨q, hq, hr⟩ := hop (ha.abs_lt hX (by omega)).le
  exact ⟨⟨q, hq, ha.round hr, hr.grid _ hg⟩, hX, by omega⟩

theorem Tracks.fmul (hv : Tracks fmt v x X j d) (hw : Tracks fmt w y Y k e)
    (hXY : X * Y ≤ maxPressure := by norm_num [maxPressure]) (hk : j + k ≤ 10 := by norm_num) :
    Tracks fmt (fmul fmt v w) (x * y) (X * Y) (j + k + 1) (d + e) := by
  obtain ⟨a, ha, haprx, hag⟩ := hv.value
  obtain ⟨b, hb, hbprx, hbg⟩ := hw.value
  exact .of_rounded (fmul_roundsTo fmt ha hb) (haprx.mul hbprx) (hag.mul_degree hbg) hXY hk

theorem Tracks.fadd (hv : Tracks fmt v x X j d) (hw : Tracks fmt w y Y k e)
    (hXY : X + Y ≤ maxPressure := by norm_num [maxPressure]) (hk : max j k ≤ 10 := by norm_num) :
    Tracks fmt (fadd fmt v w) (x + y) (X + Y) (max j k + 1) (max d e) := by
  obtain ⟨a, ha, haprx, hag⟩ := hv.value
  obtain ⟨b, hb, hbprx, hbg⟩ := hw.value
  exact .of_rounded (fadd_roundsTo fmt ha hb) (haprx.add hbprx) (hag.add_degree hbg) hXY hk

theorem Tracks.fma (hv : Tracks fmt v x X j d) (hw : Tracks fmt w y Y k e) (hu : Tracks fmt u z Z l f)
    (hXY : X * Y + Z ≤ maxPressure := by norm_num [maxPressure]) (hk : max (j + k) l ≤ 10 := by norm_num) :
    Tracks fmt (fma fmt v w u) (x * y + z) (X * Y + Z) (max (j + k) l + 1) (max (d + e) f) := by
  obtain ⟨a, ha, haprx, hag⟩ := hv.value
  obtain ⟨b, hb, hbprx, hbg⟩ := hw.value
  obtain ⟨c, hc, hcprx, hcg⟩ := hu.value
  exact .of_rounded (fma_roundsTo fmt ha hb hc) ((haprx.mul hbprx).add hcprx) ((hag.mul_degree hbg).add_degree hcg)
    hXY hk

/-- A sum that is not zero does not underflow, and a zero sum is `-0` only of two `-0` (42_compensation_pipeline.md R160,
R175). -/
theorem Tracks.fadd_ne_negZero (hv : Tracks fmt v x X j d) (hw : Tracks fmt w y Y k e) (hne : v ≠ .zero true)
    (hd : max d e ≤ 3 := by norm_num) : Machine.fadd fmt v w ≠ .zero true := by
  obtain ⟨a, ha, -, hag⟩ := hv.value
  obtain ⟨b, hb, -, hbg⟩ := hw.value
  rw [fadd_eq ha hb]
  split_ifs with hsum
  · simp [hne]
  · exact roundF_ne_zero hsum ((hag.add_degree hbg).of_degree_le_three hd) true

theorem Tracks.fma_ne_negZero (hv : Tracks fmt v x X j d) (hw : Tracks fmt w y Y k e) (hu : Tracks fmt u z Z l f)
    (hne : u ≠ .zero true) (hd : max (d + e) f ≤ 3 := by norm_num) : Machine.fma fmt v w u ≠ .zero true := by
  obtain ⟨a, ha, -, hag⟩ := hv.value
  obtain ⟨b, hb, -, hbg⟩ := hw.value
  obtain ⟨c, hc, -, hcg⟩ := hu.value
  rw [fma_eq ha hb hc]
  split_ifs with hsum
  · simp [hne]
  · exact roundF_ne_zero hsum (((hag.mul_degree hbg).add_degree hcg).of_degree_le_three hd) true

theorem Tracks.number_lt (h : Tracks fmt v x X k d) : ∃ y, v.number = some y ∧ |y| < 2 ^ 27 := by
  obtain ⟨y, hy, haprx, -⟩ := h.value
  exact ⟨y, hy.number, haprx.abs_lt h.le_max h.roundings⟩

theorem Tracks.exact_le (h : Tracks fmt v x X k d) : |x| ≤ maxPressure := by
  obtain ⟨y, -, haprx, -⟩ := h.value
  exact haprx.exact_le.trans h.le_max

/-- Eleven roundings add less than one part in `2^20` (42_compensation_pipeline.md R174). -/
theorem Tracks.close (h : Tracks fmt v x X k d) :
    ∃ y, v.number = some y ∧ 2 ^ 20 * |y - x| < maxPressure := by
  obtain ⟨y, hy, haprx, -⟩ := h.value
  refine ⟨y, hy.number, ?_⟩
  have hpow := one_add_relErr_pow_mono h.roundings
  have hone := one_le_one_add_relErr_pow k
  calc 2 ^ 20 * |y - x| ≤ 2 ^ 20 * (X * ((1 + relErr) ^ k - 1)) := by gcongr; exact haprx.close
    _ ≤ 2 ^ 20 * (maxPressure * ((1 + relErr) ^ 11 - 1)) := by
      have hX := h.le_max
      have hpos : 0 ≤ maxPressure := by norm_num [maxPressure]
      gcongr
    _ < maxPressure := by norm_num [maxPressure, relErr]

end

end Sys2Proof.Machine
end

section
/-! PROOFS of the statements about the accuracy and the range of the compensation pipeline (42_compensation_pipeline.md
R165, R174, R175): scaling, the two evaluations line by line, and all coefficients zero. -/

namespace Sys2Proof.Machine

/-! ### Scaling -/

/-- The scaled pressure is the one rounding of the exact quotient (42_compensation_pipeline.md R158, R165). -/
theorem pScaled_eq (fmt : Fmt) {v : Int} (hv : |v| ≤ 2 ^ 24) : pScaled fmt v = roundF fmt ((v : ℚ) / 1040384) := by
  rw [pScaled, kP_eq, fdiv_eq (standsFor_i2f fmt hv) (.num 1040384 (by norm_num)) (by norm_num)]
  split_ifs with h
  · obtain rfl : v = 0 := by exact_mod_cast h
    simp [FVal.neg, roundF]
  · rfl

theorem standsFor_tScaled (fmt : Fmt) {v : Int} (hv : |v| ≤ 2 ^ 24) : StandsFor (tScaled fmt v) ((v : ℚ) / 524288) := by
  rw [tScaled, kT_eq, fdiv_eq (standsFor_i2f fmt hv) (.num 524288 (by norm_num)) (by norm_num)]
  split_ifs with h
  · rw [h, zero_div]
    exact .zero _
  · have hrep := representable_int_mul_zpow fmt hv (by norm_num : (-149 : Int) ≤ -19) (by norm_num)
    have hshift : (v : ℚ) / 524288 = v * 2 ^ (-19 : Int) := by rw [div_eq_mul_inv]; norm_num
    rw [hshift]
    exact standsFor_roundF hrep

/-- The exact pressure quotient, in magnitude at most `2^23 / KP`, and above `2^-20` unless zero. -/
theorem abs_quotient_le (praw : BitVec 24) : |(signedValue praw : ℚ) / 1040384| ≤ 1024 / 127 := by
  have h : |(signedValue praw : ℚ)| ≤ 2 ^ 23 := by exact_mod_cast abs_signedValue_le (n := 23) praw
  rw [abs_div, abs_of_pos (by norm_num : (0 : ℚ) < 1040384), div_le_div_iff₀ (by norm_num) (by norm_num)]
  linarith

theorem le_abs_quotient {v : Int} (hv : v ≠ 0) : 1 / 1040384 ≤ |(v : ℚ) / 1040384| := by
  have h : (1 : ℚ) ≤ |(v : ℚ)| := by exact_mod_cast Int.one_le_abs hv
  rw [abs_div, abs_of_pos (by norm_num : (0 : ℚ) < 1040384)]
  gcongr

/-- A converted coefficient of the width `n + 1` is exact. -/
theorem tracks_i2f (fmt : Fmt) {n : Nat} {v : Int} (hv : |v| ≤ 2 ^ n) (hn : n ≤ 24) :
    Tracks fmt (i2f fmt v) v (2 ^ n) 0 0 := by
  have hpow : (2 : ℚ) ^ n ≤ 2 ^ 24 := pow_le_pow_right₀ one_le_two hn
  refine ⟨⟨v, standsFor_i2f fmt (hv.trans (pow_le_pow_right₀ one_le_two hn)), ?_, ?_⟩, ?_, by norm_num⟩
  · exact .of_exact (one_le_pow₀ one_le_two) (by exact_mod_cast hv)
  · simpa using onGrid_int v
  · exact hpow.trans (by norm_num [maxPressure])

theorem tracks_tScaled (fmt : Fmt) (traw : BitVec 24) :
    Tracks fmt (tScaled fmt (signedValue traw)) ((signedValue traw : ℚ) / Config.kT) 16 0 1 := by
  have hle : |(signedValue traw : ℚ)| ≤ 2 ^ 23 := by exact_mod_cast abs_signedValue_le (n := 23) traw
  have hkT : ((Config.kT : Int) : ℚ) = 524288 := by norm_num [Config.kT]
  rw [hkT]
  refine ⟨⟨_, standsFor_tScaled fmt (abs_raw_le_exact traw), .of_exact (by norm_num) ?_, ?_⟩,
    by norm_num [maxPressure], by norm_num⟩
  · rw [abs_div, abs_of_pos (by norm_num : (0 : ℚ) < 524288), div_le_iff₀ (by norm_num)]
    linarith
  · have hgrid : OnGrid (-19) ((signedValue traw : ℚ) / 524288) :=
      ⟨signedValue traw, by rw [div_eq_mul_inv]; norm_num⟩
    exact hgrid.mono (by rw [gridExp]; omega)

/-- The scaled pressure has the spacing of a number above `2^-20`. -/
theorem onGrid_pScaled {fmt : Fmt} {v : Int} {y : ℚ} (h : (roundF fmt ((v : ℚ) / 1040384)).number = some y) :
    OnGrid (gridExp fmt) y := by
  by_cases hv : v = 0
  · obtain rfl : 0 = y := by simpa [hv, roundF, FVal.number] using h
    exact onGrid_zero _
  · have hne : (v : ℚ) / 1040384 ≠ 0 := div_ne_zero (by exact_mod_cast hv) (by norm_num)
    have hlow : (2 : ℚ) ^ (-20 : Int) < 2 ^ (ilog2 ((v : ℚ) / 1040384) + 1) :=
      ((by norm_num : (2 : ℚ) ^ (-20 : Int) ≤ 1 / 1040384).trans (le_abs_quotient hv)).trans_lt (ilog2_spec hne).2
    have hexp := (zpow_lt_zpow_iff_right₀ one_lt_two).1 hlow
    refine OnGrid.mono ⟨_, (roundF_number hne h).1.trans (by rw [spacing_eq_zpow])⟩ ?_
    rw [gridExp]
    omega

theorem tracks_pScaled (fmt : Fmt) (praw : BitVec 24) :
    Tracks fmt (pScaled fmt (signedValue praw)) ((signedValue praw : ℚ) / Config.kP) (1024 / 127) 1 1 := by
  have hkP : ((Config.kP : Int) : ℚ) = 1040384 := by norm_num [Config.kP]
  have hle := abs_quotient_le praw
  rw [hkP, pScaled_eq fmt (abs_raw_le_exact praw)]
  obtain ⟨y, hy, hr⟩ := roundF_roundsTo fmt (hle.trans (by norm_num))
  refine ⟨⟨y, hy, (Approx.of_exact (by norm_num) hle).round hr, ?_⟩, by norm_num [maxPressure], by norm_num⟩
  simpa using onGrid_pScaled hy.number

theorem pScaled_relative {fmt : Fmt} {v : Int} {y : ℚ} (h : (roundF fmt ((v : ℚ) / 1040384)).number = some y) :
    |y - (v : ℚ) / 1040384| ≤ |(v : ℚ) / 1040384| / 2 ^ prec fmt := by
  by_cases hv : v = 0
  · obtain rfl : 0 = y := by simpa [hv, roundF, FVal.number] using h
    simp [hv]
  · have hmin : emin fmt ≤ -20 := by cases fmt <;> simp [emin]
    refine roundF_relative ?_ h
    calc (2 : ℚ) ^ emin fmt ≤ (2 : ℚ) ^ (-20 : Int) := zpow_le_zpow_right₀ one_le_two hmin
      _ ≤ 1 / 1040384 := by norm_num
      _ ≤ |(v : ℚ) / 1040384| := le_abs_quotient hv

theorem pScaled_two_kP (fmt : Fmt) : pScaled fmt 2080768 = i2f fmt 2 := by
  have hquot : ((2080768 : Int) : ℚ) / 1040384 = ((2 : Int) : ℚ) := by norm_num
  rw [pScaled_eq fmt (by decide), hquot, i2f]

/-- Settles O32: the quotient is normal unless zero, so the one rounding is within one part in `2^p` of it. -/
theorem pressureScalingRange : Obligations.PressureScalingRange := by
  unfold Obligations.PressureScalingRange
  intro fmt praw
  have hscaled := pScaled_eq fmt (abs_raw_le_exact praw)
  have hq := abs_quotient_le praw
  obtain ⟨y, hy, -⟩ := roundF_roundsTo fmt (hq.trans (by norm_num))
  have hclose := pScaled_relative hy.number
  have hprec : |(signedValue praw : ℚ) / 1040384| / 2 ^ prec fmt ≤ |(signedValue praw : ℚ) / 1040384| / 2 ^ 24 := by
    have hp : 24 ≤ prec fmt := by cases fmt <;> simp [prec]
    gcongr
    norm_num
  have hupper := abs_sub_abs_le_abs_sub y ((signedValue praw : ℚ) / 1040384)
  have hlower := abs_sub_abs_le_abs_sub ((signedValue praw : ℚ) / 1040384) y
  rw [abs_sub_comm] at hlower
  refine ⟨hscaled, ⟨y, hscaled ▸ hy.number, by linarith, fun hne => ?_, hclose⟩, pScaled_kP fmt, ?_⟩
  · linarith [le_abs_quotient hne]
  · simp [pScaled_two_kP, i2f_eq fmt (v := 2) (by decide)]

/-! ### The two evaluations -/

/-- A value of an evaluation that is accounted for: it `Tracks` the exact value `x`. -/
def Tracked (fmt : Fmt) (v : FVal) (x : ℚ) : Prop := ∃ X k d, Tracks fmt v x X k d

/-- What is shown of an evaluation with the values `vs` and the result `r`, for the pressure `x` in exact arithmetic. -/
structure Sound (fmt : Fmt) (vs : List FVal) (r : FVal) (x : ℚ) : Prop where
  values : ∀ v ∈ vs, ∃ y, Tracked fmt v y
  result : Tracked fmt r x
  ne_negZero : r ≠ .zero true

theorem Tracks.tracked {fmt : Fmt} {v : FVal} {x X : ℚ} {k d : Nat} (h : Tracks fmt v x X k d) :
    ∃ y, Tracked fmt v y := ⟨x, X, k, d, h⟩

theorem Tracks.tracked_of_eq {fmt : Fmt} {v : FVal} {x y X : ℚ} {k d : Nat} (h : Tracks fmt v x X k d) (hxy : x = y) :
    Tracked fmt v y := ⟨X, k, d, hxy ▸ h⟩

theorem i2f_ne_negZero (fmt : Fmt) {v : Int} (hv : |v| ≤ 2 ^ 24) : i2f fmt v ≠ .zero true := by
  rw [i2f_eq fmt hv]
  split_ifs <;> simp

section
variable (fmt : Fmt) (c : Coefs) (traw praw : BitVec 24)

theorem tracks_coefs :
    Tracks fmt (i2f fmt (coefValues c).c00) (coefValues c).c00 (2 ^ 19) 0 0 ∧
    Tracks fmt (i2f fmt (coefValues c).c10) (coefValues c).c10 (2 ^ 19) 0 0 ∧
    Tracks fmt (i2f fmt (coefValues c).c01) (coefValues c).c01 (2 ^ 15) 0 0 ∧
    Tracks fmt (i2f fmt (coefValues c).c11) (coefValues c).c11 (2 ^ 15) 0 0 ∧
    Tracks fmt (i2f fmt (coefValues c).c20) (coefValues c).c20 (2 ^ 15) 0 0 ∧
    Tracks fmt (i2f fmt (coefValues c).c21) (coefValues c).c21 (2 ^ 15) 0 0 ∧
    Tracks fmt (i2f fmt (coefValues c).c30) (coefValues c).c30 (2 ^ 15) 0 0 := by
  have h20 (u : BitVec 20) : Tracks fmt (i2f fmt (signedValue u)) (signedValue u) (2 ^ 19) 0 0 :=
    tracks_i2f fmt (abs_signedValue_le u) (by norm_num)
  have h16 (u : BitVec 16) : Tracks fmt (i2f fmt (signedValue u)) (signedValue u) (2 ^ 15) 0 0 :=
    tracks_i2f fmt (abs_signedValue_le u) (by norm_num)
  exact ⟨h20 c.c00, h20 c.c10, h16 c.c01, h16 c.c11, h16 c.c20, h16 c.c21, h16 c.c30⟩

/-- Line by line of the separate sequence (42_compensation_pipeline.md R170). -/
theorem traceSeparate_sound : Sound fmt (traceSeparate fmt (coefValues c) (signedValue traw) (signedValue praw)).all
    (traceSeparate fmt (coefValues c) (signedValue traw) (signedValue praw)).s3
    (exactPressure (coefValues c) (signedValue traw) (signedValue praw)) := by
  obtain ⟨h00, h10, h01, h11, h20, h21, h30⟩ := tracks_coefs fmt c
  have hts := tracks_tScaled fmt traw
  have hps := tracks_pScaled fmt praw
  have ha1 := hps.fmul h30
  have ha2 := h20.fadd ha1
  have ha3 := hps.fmul ha2
  have ha4 := h10.fadd ha3
  have ha5 := hps.fmul ha4
  have hs1 := h00.fadd ha5
  have hb1 := hts.fmul h01
  have hs2 := hs1.fadd hb1
  have hd1 := hps.fmul h21
  have hd2 := h11.fadd hd1
  have hd3 := hts.fmul hps
  have hd4 := hd3.fmul hd2
  have hs3 := hs2.fadd hd4
  have hpos1 := h00.fadd_ne_negZero ha5 (i2f_ne_negZero fmt (abs_coefValues_le_exact c .c00))
  have hpos2 := hs1.fadd_ne_negZero hb1 hpos1
  have hpos3 := hs2.fadd_ne_negZero hd4 hpos2
  refine ⟨?_, ⟨_, _, _, hs3⟩, hpos3⟩
  simp only [SeparateTrace.all, List.forall_mem_cons]
  exact ⟨hts.tracked, hps.tracked, ha1.tracked, ha2.tracked, ha3.tracked, ha4.tracked, ha5.tracked, hs1.tracked,
    hb1.tracked, hs2.tracked, hd1.tracked, hd2.tracked, hd3.tracked, hd4.tracked, hs3.tracked, nofun⟩

/-- Line by line of the fused sequence (42_compensation_pipeline.md R171). -/
theorem traceFused_sound : Sound fmt (traceFused fmt (coefValues c) (signedValue traw) (signedValue praw)).all
    (traceFused fmt (coefValues c) (signedValue traw) (signedValue praw)).s3
    (exactPressure (coefValues c) (signedValue traw) (signedValue praw)) := by
  obtain ⟨h00, h10, h01, h11, h20, h21, h30⟩ := tracks_coefs fmt c
  have hts := tracks_tScaled fmt traw
  have hps := tracks_pScaled fmt praw
  have ha2 := hps.fma h30 h20
  have ha4 := hps.fma ha2 h10
  have hs1 := hps.fma ha4 h00
  have hs2 := hts.fma h01 hs1
  have hd2 := hps.fma h21 h11
  have hd3 := hts.fmul hps
  have hs3 := hd3.fma hd2 hs2
  have hpos1 := hps.fma_ne_negZero ha4 h00 (i2f_ne_negZero fmt (abs_coefValues_le_exact c .c00))
  have hpos2 := hts.fma_ne_negZero h01 hs1 hpos1
  have hpos3 := hd3.fma_ne_negZero hd2 hs2 hpos2
  refine ⟨?_, hs3.tracked_of_eq (by unfold exactPressure; ring), hpos3⟩
  simp only [FusedTrace.all, List.forall_mem_cons]
  exact ⟨hts.tracked, hps.tracked, ha2.tracked, ha4.tracked, hs1.tracked, hs2.tracked, hd2.tracked, hd3.tracked,
    hs3.tracked, nofun⟩

end

theorem comp_sound (params : Params) (c : Coefs) (traw praw : BitVec 24) :
    ∃ vs, Sound params.fmt vs (comp params (coefValues c) (signedValue traw) (signedValue praw))
      (exactPressure (coefValues c) (signedValue traw) (signedValue praw)) := by
  obtain ⟨fmt, m⟩ := params
  cases m with
  | separate => exact ⟨_, traceSeparate_sound fmt c traw praw⟩
  | fused => exact ⟨_, traceFused_sound fmt c traw praw⟩

theorem Sound.number_lt {fmt : Fmt} {vs : List FVal} {r v : FVal} {x : ℚ} (h : Sound fmt vs r x) (hv : v ∈ vs) :
    ∃ y : ℚ, v.number = some y ∧ |y| < 2 ^ 27 := by
  obtain ⟨_, _, _, _, htracks⟩ := h.values v hv
  exact htracks.number_lt

/-- Settles O36: every value is within its rounding error of an exact one that is at most the greatest pressure. -/
theorem noValueOfThePipelineOverflows : Obligations.NoValueOfThePipelineOverflows := by
  unfold Obligations.NoValueOfThePipelineOverflows
  intro fmt c traw praw
  obtain ⟨_, _, _, hresult⟩ := (traceSeparate_sound fmt c traw praw).result
  exact ⟨fun v => (traceSeparate_sound fmt c traw praw).number_lt, fun v => (traceFused_sound fmt c traw praw).number_lt,
    hresult.exact_le⟩

/-- Settles O60: no path to the result has more than eleven roundings. -/
theorem resultIsCloseToTheFormula : Obligations.ResultIsCloseToTheFormula := by
  unfold Obligations.ResultIsCloseToTheFormula
  intro params c traw praw
  obtain ⟨_, hsound⟩ := comp_sound params c traw praw
  obtain ⟨_, _, _, hresult⟩ := hsound.result
  exact hresult.close

/-! ### All coefficients zero -/

theorem fmul_standsFor_zero (fmt : Fmt) {a : FVal} {x : ℚ} (ha : StandsFor a x) (s : Bool) :
    fmul fmt a (.zero s) = .zero (a.neg ^^ s) := by
  rw [fmul_eq ha (.zero s)]
  simp [FVal.neg]

theorem exactProduct_standsFor_zero {a : FVal} {x : ℚ} (ha : StandsFor a x) (s : Bool) :
    exactProduct a (.zero s) = .zero (a.neg ^^ s) := by
  rw [exactProduct_eq ha (.zero s)]
  simp [FVal.neg]

/-- Every product is a zero, and every sum starts from `+0` (42_compensation_pipeline.md R176). -/
theorem comp_zero_coefs (params : Params) (traw praw : BitVec 24) :
    comp params ⟨0, 0, 0, 0, 0, 0, 0⟩ (signedValue traw) (signedValue praw) = .zero false := by
  obtain ⟨fmt, m⟩ := params
  have hts := tracks_tScaled fmt traw
  have hps := tracks_pScaled fmt praw
  obtain ⟨_, ht, -⟩ := hts.value
  obtain ⟨_, hp, -⟩ := hps.value
  obtain ⟨_, hd3, -⟩ := (hts.fmul hps).value
  cases m with
  | separate =>
    simp [comp, traceSeparate, fmul_standsFor_zero fmt ht, fmul_standsFor_zero fmt hp, fmul_standsFor_zero fmt hd3,
      fadd_zero_zero]
  | fused =>
    simp [comp, traceFused, fma, exactProduct_standsFor_zero ht, exactProduct_standsFor_zero hp,
      exactProduct_standsFor_zero hd3, fadd_zero_zero]

/-- Settles O37: the chain of sums starts from a converted coefficient, which is not `-0`, and no sum underflows. -/
theorem resultIsNeverNegativeZero : Obligations.ResultIsNeverNegativeZero := by
  unfold Obligations.ResultIsNeverNegativeZero
  intro params c traw praw
  obtain ⟨_, hsound⟩ := comp_sound params c traw praw
  exact ⟨hsound.ne_negZero, fun hzero => hzero ▸ comp_zero_coefs params traw praw⟩

end Sys2Proof.Machine
end

section
/-! PROOFS of the statement about the coefficient-to-term mapping (42_compensation_pipeline.md R167): on integers of at
most 24 bits no operation rounds. -/

namespace Sys2Proof.Machine

theorem standsFor_zero_or_roundF {fmt : Fmt} {x : ℚ} (h : Representable fmt x) (s : Bool) :
    StandsFor (if x = 0 then .zero s else roundF fmt x) x := by
  split_ifs with hx
  · rw [hx]
    exact .zero s
  · exact standsFor_roundF h

section
variable (fmt : Fmt) {a b c : FVal} {m n l : Int}

theorem fmul_int (ha : StandsFor a m) (hb : StandsFor b n) (hlow : -(2 ^ 24) ≤ m * n := by omega)
    (hhigh : m * n ≤ 2 ^ 24 := by omega) : StandsFor (fmul fmt a b) (m * n : Int) := by
  rw [fmul_eq ha hb, Int.cast_mul]
  exact standsFor_zero_or_roundF (by exact_mod_cast representable_int fmt (abs_le.2 ⟨hlow, hhigh⟩)) _

theorem fadd_int (ha : StandsFor a m) (hb : StandsFor b n) (hlow : -(2 ^ 24) ≤ m + n := by omega)
    (hhigh : m + n ≤ 2 ^ 24 := by omega) : StandsFor (fadd fmt a b) (m + n : Int) := by
  rw [fadd_eq ha hb, Int.cast_add]
  exact standsFor_zero_or_roundF (by exact_mod_cast representable_int fmt (abs_le.2 ⟨hlow, hhigh⟩)) _

theorem fma_int (ha : StandsFor a m) (hb : StandsFor b n) (hc : StandsFor c l) (hlow : -(2 ^ 24) ≤ m * n + l := by omega)
    (hhigh : m * n + l ≤ 2 ^ 24 := by omega) : StandsFor (fma fmt a b c) (m * n + l : Int) := by
  rw [fma_eq ha hb hc, Int.cast_add, Int.cast_mul]
  exact standsFor_zero_or_roundF (by exact_mod_cast representable_int fmt (abs_le.2 ⟨hlow, hhigh⟩)) _

end

theorem standsFor_tScaled_three (fmt : Fmt) : StandsFor (tScaled fmt 1572864) (3 : Int) := by
  have hquot : ((1572864 : Int) : ℚ) / 524288 = (3 : Int) := by norm_num
  exact hquot ▸ standsFor_tScaled fmt (v := 1572864) (by decide)

theorem standsFor_pScaled_two (fmt : Fmt) : StandsFor (pScaled fmt 2080768) (2 : Int) := by
  rw [pScaled_two_kP]
  exact standsFor_i2f fmt (by decide)

/-- The weighted sum of the seven coefficients at `ts = 3`, `ps = 2` (42_compensation_pipeline.md R167). -/
def weightedSum (v : CoefVals) : Int :=
  v.c00 + 2 * v.c10 + 3 * v.c01 + 6 * v.c11 + 4 * v.c20 + 12 * v.c21 + 8 * v.c30

theorem StandsFor.of_int_eq {a : FVal} {m n : Int} (h : StandsFor a m) (hmn : m = n) : StandsFor a n := hmn ▸ h

/-- The ranges of the seven registers (10_state.md R21). -/
theorem CoefVals.bounds {v : CoefVals} (hv : v.wellFormed = true) :
    (-524288 ≤ v.c00 ∧ v.c00 < 524288) ∧ (-524288 ≤ v.c10 ∧ v.c10 < 524288) ∧ (-32768 ≤ v.c01 ∧ v.c01 < 32768) ∧
      (-32768 ≤ v.c11 ∧ v.c11 < 32768) ∧ (-32768 ≤ v.c20 ∧ v.c20 < 32768) ∧ (-32768 ≤ v.c21 ∧ v.c21 < 32768) ∧
      (-32768 ≤ v.c30 ∧ v.c30 < 32768) := by
  simpa [CoefVals.wellFormed, inRange, and_assoc] using hv

section
variable (fmt : Fmt) {v : CoefVals} (hv : v.wellFormed = true)
include hv

theorem standsFor_coefs : StandsFor (i2f fmt v.c00) v.c00 ∧ StandsFor (i2f fmt v.c10) v.c10 ∧
    StandsFor (i2f fmt v.c01) v.c01 ∧ StandsFor (i2f fmt v.c11) v.c11 ∧ StandsFor (i2f fmt v.c20) v.c20 ∧
    StandsFor (i2f fmt v.c21) v.c21 ∧ StandsFor (i2f fmt v.c30) v.c30 := by
  have hbounds := CoefVals.bounds hv
  have hconv {n : Int} (hlow : -(2 ^ 24) ≤ n) (hhigh : n ≤ 2 ^ 24) : StandsFor (i2f fmt n) n :=
    standsFor_i2f fmt (abs_le.2 ⟨hlow, hhigh⟩)
  refine ⟨hconv ?_ ?_, hconv ?_ ?_, hconv ?_ ?_, hconv ?_ ?_, hconv ?_ ?_, hconv ?_ ?_, hconv ?_ ?_⟩ <;> omega

/-- Every value is an integer of at most 24 bits, so no line of the separate sequence rounds. -/
theorem traceSeparate_terms : StandsFor (traceSeparate fmt v 1572864 2080768).s3 (weightedSum v) := by
  have hbounds := CoefVals.bounds hv
  obtain ⟨h00, h10, h01, h11, h20, h21, h30⟩ := standsFor_coefs fmt hv
  have hts := standsFor_tScaled_three fmt
  have hps := standsFor_pScaled_two fmt
  have ha1 := fmul_int fmt hps h30
  have ha2 := fadd_int fmt h20 ha1
  have ha3 := fmul_int fmt hps ha2
  have ha4 := fadd_int fmt h10 ha3
  have ha5 := fmul_int fmt hps ha4
  have hs1 := fadd_int fmt h00 ha5
  have hb1 := fmul_int fmt hts h01
  have hs2 := fadd_int fmt hs1 hb1
  have hd1 := fmul_int fmt hps h21
  have hd2 := fadd_int fmt h11 hd1
  have hd3 := fmul_int fmt hts hps
  have hd4 := fmul_int fmt hd3 hd2
  have hs3 := fadd_int fmt hs2 hd4
  exact hs3.of_int_eq (by unfold weightedSum; ring)

/-- Nor does any line of the fused sequence. -/
theorem traceFused_terms : StandsFor (traceFused fmt v 1572864 2080768).s3 (weightedSum v) := by
  have hbounds := CoefVals.bounds hv
  obtain ⟨h00, h10, h01, h11, h20, h21, h30⟩ := standsFor_coefs fmt hv
  have hts := standsFor_tScaled_three fmt
  have hps := standsFor_pScaled_two fmt
  have ha2 := fma_int fmt hps h30 h20
  have ha4 := fma_int fmt hps ha2 h10
  have hs1 := fma_int fmt hps ha4 h00
  have hs2 := fma_int fmt hts h01 hs1
  have hd2 := fma_int fmt hps h21 h11
  have hd3 := fmul_int fmt hts hps
  have hs3 := fma_int fmt hd3 hd2 hs2
  exact hs3.of_int_eq (by unfold weightedSum; ring)

end

/-- Settles O35: in both sequences every line is exact on the integers that occur. -/
theorem eachCoefficientHasItsTerm : Obligations.EachCoefficientHasItsTerm := by
  unfold Obligations.EachCoefficientHasItsTerm
  rintro ⟨fmt, m⟩ c v
  have hv : v.wellFormed = true := coefValues_wellFormed c
  cases m with
  | separate => exact (traceSeparate_terms fmt hv).number
  | fused => exact (traceFused_terms fmt hv).number

end Sys2Proof.Machine
end
